-- ==== Sys2Proof/Word.lean ====
section
/-! DEFINITION. The words of the core, by the widths the spec gives them: bytes, 80-bit values of `[0, M)`, the
96-bit command word and response data. No operation stands here: BitVec's own suffice. -/

namespace Sys2Proof

/-- A base-256 digit of a block (00_scope.md R7). -/
abbrev Byte := BitVec 8

/-- A value reduced into `[0, M)`, `M = 2^80` (00_scope.md R9). -/
abbrev Word := BitVec 80

/-- A command word: OPC in bits 95:88, ARG in bits 87:80, IMM in bits 79:0 (30_encoding.md R71). -/
abbrev CommandWord := BitVec 96

/-- The DATA field of a response (30_encoding.md R78). -/
abbrev Data := BitVec 96

end Sys2Proof
end

