-- ==== Sys2Proof/Syntax.lean ====
section
/-! DEFINITION. The seventeen commands of the opcode map (30_encoding.md R74), one constructor a row. An operand is
the ARG field (a byte, R73) or the IMM field (an 80-bit value, R73). -/

namespace Sys2Proof

/-- A command with its operand, as the decoder gives it (30_encoding.md R74, R75). -/
inductive Instr where
  /-- NOP, OPC 0x00 (43_system.md R170). -/
  | nop
  /-- INIT, OPC 0x01 (43_system.md R171). -/
  | init
  /-- RD reg, OPC 0x02 (43_system.md R172). -/
  | rd (reg : Byte)
  /-- LDA a, OPC 0x10 (42_cipher.md R143). -/
  | lda (a : Word)
  /-- LDB b, OPC 0x11 (42_cipher.md R144). -/
  | ldb (b : Word)
  /-- LDX v, OPC 0x12 (42_cipher.md R145). -/
  | ldx (v : Word)
  /-- GCD, OPC 0x20 (40_modular_arithmetic.md R100). -/
  | gcd
  /-- MODINV, OPC 0x21 (40_modular_arithmetic.md R101). -/
  | modinv
  /-- SETLEN n, OPC 0x30 (41_converter.md R124). -/
  | setlen (n : Byte)
  /-- PUSHB byte, OPC 0x31 (41_converter.md R125). -/
  | pushb (byte : Byte)
  /-- RDB index, OPC 0x32 (41_converter.md R127). -/
  | rdb (index : Byte)
  /-- B2I, OPC 0x33 (41_converter.md R128). -/
  | b2i
  /-- I2B, OPC 0x34 (41_converter.md R129). -/
  | i2b
  /-- ENC, OPC 0x40 (42_cipher.md R146). -/
  | enc
  /-- DEC, OPC 0x41 (42_cipher.md R147). -/
  | dec
  /-- ENCBLK, OPC 0x42 (42_cipher.md R148). -/
  | encblk
  /-- DECBLK, OPC 0x43 (42_cipher.md R149). -/
  | decblk
  deriving DecidableEq, Repr

end Sys2Proof
end

