-- ==== Sys2Proof/Decode.lean ====
section
/-! DEFINITION. The decoder (30_encoding.md R75), total on all `2^96` words and rejecting illegal words by name (R76),
and after it the encoder, written from the same field layout (R71, R72, R74). Decoding does not look at the state. -/

namespace Sys2Proof

/-- Why a word decodes to *illegal* (30_encoding.md R76): the three lists of that rule. The reason is not observable;
every illegal word raises IllegalCommand. -/
inductive Illegal where
  /-- OPC is not one of the seventeen values of R74. -/
  | unassignedOpcode
  /-- An F0 or FI word with ARG not 0. -/
  | argNotZero
  /-- An F0 or FA word whose ARG is in order and whose IMM is not 0. -/
  | immNotZero
  deriving DecidableEq, Repr

/-- The OPC field, bits 95:88 (30_encoding.md R71). -/
def opcField (w : CommandWord) : Byte := w.extractLsb' 88 8

/-- The ARG field, bits 87:80 (30_encoding.md R71). -/
def argField (w : CommandWord) : Byte := w.extractLsb' 80 8

/-- The IMM field, bits 79:0 (30_encoding.md R71). -/
def immField (w : CommandWord) : Word := w.extractLsb' 0 80

/-- A row of the opcode map by its format (30_encoding.md R72): what the command takes from the word. -/
inductive Format where
  | f0 (command : Instr)
  | fa (command : Byte → Instr)
  | fi (command : Word → Instr)

/-- The opcode map (30_encoding.md R74): the row of an OPC value, none where the value is unassigned. -/
def opcodeMap (opc : Byte) : Option Format :=
  match opc with
  | 0x00 => some (.f0 .nop)
  | 0x01 => some (.f0 .init)
  | 0x02 => some (.fa .rd)
  | 0x10 => some (.fi .lda)
  | 0x11 => some (.fi .ldb)
  | 0x12 => some (.fi .ldx)
  | 0x20 => some (.f0 .gcd)
  | 0x21 => some (.f0 .modinv)
  | 0x30 => some (.fa .setlen)
  | 0x31 => some (.fa .pushb)
  | 0x32 => some (.fa .rdb)
  | 0x33 => some (.f0 .b2i)
  | 0x34 => some (.f0 .i2b)
  | 0x40 => some (.f0 .enc)
  | 0x41 => some (.f0 .dec)
  | 0x42 => some (.f0 .encblk)
  | 0x43 => some (.f0 .decblk)
  | _ => none

/-- The fields a format uses, with those it does not use held to zero (30_encoding.md R72, R75). -/
def decodeFields (arg : Byte) (imm : Word) : Format → Except Illegal Instr
  | .f0 command =>
    if arg ≠ 0 then .error .argNotZero
    else if imm ≠ 0 then .error .immNotZero
    else .ok command
  | .fa command => if imm ≠ 0 then .error .immNotZero else .ok (command arg)
  | .fi command => if arg ≠ 0 then .error .argNotZero else .ok (command imm)

/-- The decoder (30_encoding.md R75): a command with its operand, or illegal with the reason. -/
def decode (w : CommandWord) : Except Illegal Instr :=
  match opcodeMap (opcField w) with
  | some format => decodeFields (argField w) (immField w) format
  | none => .error .unassignedOpcode

/-- The OPC of a command (30_encoding.md R74). -/
def opcodeOf : Instr → Byte
  | .nop => 0x00
  | .init => 0x01
  | .rd _ => 0x02
  | .lda _ => 0x10
  | .ldb _ => 0x11
  | .ldx _ => 0x12
  | .gcd => 0x20
  | .modinv => 0x21
  | .setlen _ => 0x30
  | .pushb _ => 0x31
  | .rdb _ => 0x32
  | .b2i => 0x33
  | .i2b => 0x34
  | .enc => 0x40
  | .dec => 0x41
  | .encblk => 0x42
  | .decblk => 0x43

/-- The ARG field of a command: its operand where it has format FA, else 0 (30_encoding.md R72). -/
def argOf : Instr → Byte
  | .rd reg => reg
  | .setlen n => n
  | .pushb byte => byte
  | .rdb index => index
  | .nop | .init | .lda _ | .ldb _ | .ldx _ | .gcd | .modinv | .b2i | .i2b | .enc | .dec | .encblk | .decblk => 0

/-- The IMM field of a command: its operand where it has format FI, else 0 (30_encoding.md R72). -/
def immOf : Instr → Word
  | .lda a => a
  | .ldb b => b
  | .ldx v => v
  | .nop | .init | .rd _ | .gcd | .modinv | .setlen _ | .pushb _ | .rdb _ | .b2i | .i2b | .enc | .dec | .encblk
  | .decblk => 0

/-- The encoder: `OPC·2^88 + ARG·2^80 + IMM` (30_encoding.md R71). -/
def encode (i : Instr) : CommandWord := opcodeOf i ++ argOf i ++ immOf i

/-- What the decoder reads from a word given by its number, for the host's opcode-table check: bit 0 is the least
significant, every bit at or above `nbits` is 0. The core takes a word as one 96-bit value (30_encoding.md R54). -/
def decodeTableWord (nbits w : Nat) : Option Instr :=
  match decode (BitVec.ofNat 96 (w % 2 ^ nbits)) with
  | .ok i => some i
  | .error _ => none

end Sys2Proof
end

