-- ==== Sys2Proof/Machine/State.lean ====
section
/-! DEFINITION. The state of the core as plain data: the record of 10_state.md R20, whole, and three fields of the
model's own for the host's side of the two ports and for "no reset yet" (log entries 1, 2, 3). -/

namespace Sys2Proof.Machine

/-- The fault causes ERR can hold (60_exceptions.md R181: codes 1 to 6 and 8; code 7 is never stored, 10_state.md R32).
A cause is no stop of the machine: raising one leads to a next state (R183). -/
inductive Cause where
  /-- Code 1: the word decodes to illegal (60_exceptions.md R185). -/
  | illegalCommand
  /-- Code 2: MODINV with `gcd(A, M) ≠ 1` (60_exceptions.md R191). -/
  | notInvertible
  /-- Code 3: a key register the command needs was not loaded in this run (60_exceptions.md R192). -/
  | keyNotLoaded
  /-- Code 4: PUSHB with LEN already 10 (60_exceptions.md R193). -/
  | blockOverflow
  /-- Code 5: SETLEN with ARG above 10 (60_exceptions.md R193). -/
  | badLength
  /-- Code 6: RDB or RD with an index that names no valid byte or no register (60_exceptions.md R193). -/
  | badIndex
  /-- Code 8: DEC or DECBLK with INVV = 0 (60_exceptions.md R192). -/
  | inverseNotReady
  deriving DecidableEq, Repr

/-- The CODE of a response (30_encoding.md R78): completed, a cause, or refused because the run is dead. Codes 9 to
255 are never produced (60_exceptions.md R181). -/
inductive Code where
  /-- Code 0: the command completed. -/
  | completed
  /-- Codes 1 to 6 and 8: the fault this command raised. -/
  | raised (cause : Cause)
  /-- Code 7, Halted: refused because ERR is not 0 (60_exceptions.md R184). -/
  | halted
  deriving DecidableEq, Repr

/-- The response of one command (30_encoding.md R78). -/
structure Response where
  code : Code
  data : Data
  deriving DecidableEq, Repr

/-- What the host does at the command level (70_reset_and_hazards.md R225): it presents a command word or asserts
reset. A command reset away before its response was taken is the one move `reset`: its word is never answered and
the state is the reset state (R211, decision D23). -/
inductive HostMove where
  | command (word : CommandWord)
  | reset
  deriving DecidableEq, Repr

/-- The block buffer as cells (address, byte), in the canonical form `Memory.wf` (20_memory.md R51, R59). -/
abbrev Memory := List Host.Cell

/-- What a cell that is not listed reads as: the reset value of every buffer cell (10_state.md R40). -/
def Memory.unlisted : Byte := 0

/-- Addresses rise strictly from `low` on, all are below 10, and no cell holds what an unlisted one reads as. -/
def Memory.wfFrom (low : Nat) : Memory → Bool
  | [] => true
  | (a, v) :: m => decide (low ≤ a) && decide (a < 10) && decide (v ≠ Memory.unlisted) && Memory.wfFrom (a + 1) m

/-- The canonical form of the buffer: equal buffers are equal lists. -/
def Memory.wf (m : Memory) : Bool := Memory.wfFrom 0 m

/-- The machine: the architectural state of 10_state.md R20 and the model's own fields. -/
structure State where
  /-- A, the multiplier (10_state.md R21). -/
  a : Word
  /-- B, the addend (10_state.md R22). -/
  b : Word
  /-- INVA, the inverse of A modulo M (10_state.md R23). -/
  inva : Word
  /-- X, the block integer being transformed (10_state.md R24). -/
  x : Word
  /-- G, the last `gcd(A, M)` computed, 0 for none (10_state.md R25). -/
  g : BitVec 81
  /-- P, the raw Bézout coefficient, 82-bit two's complement (10_state.md R26). -/
  p : BitVec 82
  /-- AV (10_state.md R27). -/
  av : Bool
  /-- BV (10_state.md R28). -/
  bv : Bool
  /-- INVV (10_state.md R29). -/
  invv : Bool
  /-- BUF (10_state.md R30). -/
  buf : Memory
  /-- LEN, 0 to 10 (10_state.md R31). -/
  len : Fin 11
  /-- ERR: none is 0, some cause is that cause's code (10_state.md R32). -/
  err : Option Cause
  /-- The model's own: a first reset has happened (70_reset_and_hazards.md R212; log entry 3). -/
  resetDone : Bool
  /-- The model's own: the host's moves not yet taken, oldest first (10_state.md R33; log entry 1). -/
  moves : List HostMove
  /-- The model's own: the responses given so far, newest first (70_reset_and_hazards.md R226; log entry 2). -/
  rsps : List Response
  deriving DecidableEq, Repr

/-- The machine's stopping faults: none. Every word in every state has an outcome (60_exceptions.md R186), and a fault
of the spec is a next state with a code in ERR and in the response (R183), so no constructor is called for. -/
inductive Fault where
  deriving DecidableEq, Repr

/-- Why the model gives a step no meaning. -/
inductive Refusal where
  /-- An instruction without a meaning yet; only exec's arms may raise it, and none does. Safe: nothing is claimed. -/
  | notModelled (mnemonic : String)
  /-- Raised by the step and by a clock edge before the first reset (70_reset_and_hazards.md R212: "refuse, not
  guess"). Safe: the model stops where the hardware's response is unspecified. -/
  | beforeFirstReset
  deriving DecidableEq, Repr

/-- The machine right after reset (10_state.md R40, 70_reset_and_hazards.md R210): every piece of architectural state
is zero, no response is pending; no move of the host is waiting. -/
def State.reset : State where
  a := 0
  b := 0
  inva := 0
  x := 0
  g := 0
  p := 0
  av := false
  bv := false
  invv := false
  buf := []
  len := 0
  err := none
  resetDone := true
  moves := []
  rsps := []

end Sys2Proof.Machine
end

