-- ==== Sys2Proof/Config.lean ====
section
/-! DEFINITION. The constants of the hardware (00_scope.md R6, R7, R8) and its one open parameter, LAT (R10). -/

namespace Sys2Proof

/-- `BLOCK_BYTES = 10` (00_scope.md R6). -/
def Config.blockBytes : Nat := 10

/-- `RADIX = 256` (00_scope.md R7). -/
def Config.radix : Nat := 256

/-- The part of LAT above its least value 1: nothing is known of it (00_scope.md R10, 70_reset_and_hazards.md R222). -/
opaque Config.extraCycles : CommandWord → Machine.State → Nat

/-- `LAT(command, state)`: a finite number of clock cycles, at least 1 (70_reset_and_hazards.md R222; log entry 4). It
is a function of the word, so that an illegal word, which is answered too, has a latency. -/
def Config.lat (w : CommandWord) (s : Machine.State) : Nat := Config.extraCycles w s + 1

end Sys2Proof
end

