-- ==== Sys2Proof/Machine/Arithmetic.lean ====
section
/-! DEFINITION. The source's functions on mathematical integers (40_modular_arithmetic.md R90 to R95, 41_converter.md
R121, R122, 42_cipher.md R140): exact, no width. The loops recurse on a fuel that is one more than the value that
shrinks, so it never runs out. -/

namespace Sys2Proof.Machine

/-- `power(base, exp)` (40_modular_arithmetic.md R95). -/
def power (base : Int) : Nat → Int
  | 0 => 1
  | exp + 1 => base * power base exp

/-- The modulus `M = power(RADIX, BLOCK_BYTES) = 256^10 = 2^80` (00_scope.md R8). -/
def modulus : Nat := (power Config.radix Config.blockBytes).toNat

/-- The weight `256^i` of byte `i` of a block (40_modular_arithmetic.md R95, 41_converter.md R121). -/
def weight (i : Nat) : Nat := (power Config.radix i).toNat

/-- The loop of `gcd` (40_modular_arithmetic.md R91); `y` shrinks and stays below the fuel. -/
def gcdLoop : Nat → Nat → Nat → Nat
  | 0, x, _ => x
  | fuel + 1, x, y => if y = 0 then x else gcdLoop fuel y (x % y)

/-- `gcd(x, y)` by the Euclidean algorithm on non-negative operands (40_modular_arithmetic.md R91). -/
def gcdOf (x y : Nat) : Nat := gcdLoop (y + 1) x y

/-- The loop of `xgcd` (40_modular_arithmetic.md R92): remainders `r0`, `r1`, coefficients `t0`, `t1`; `r1` shrinks
and stays below the fuel. -/
def xgcdLoop : Nat → Nat → Nat → Int → Int → Nat × Int
  | 0, r0, _, t0, _ => (r0, t0)
  | fuel + 1, r0, r1, t0, t1 =>
    if r1 = 0 then (r0, t0)
    else xgcdLoop fuel r1 (r0 - r0 / r1 * r1) t1 (t0 - (r0 / r1 : Nat) * t1)

/-- `xgcd(a, m)`: the gcd and the Bézout coefficient for `a` (40_modular_arithmetic.md R92). -/
def xgcd (a m : Nat) : Nat × Int := xgcdLoop (a + 1) m a 0 1

/-- `normalize(x, m)`: the floored remainder (40_modular_arithmetic.md R94, 00_scope.md R14, 90_conflicts.md C2). -/
def normalize (x m : Int) : Int := x.fmod m

/-- `normalize(x, M)` as a value of `[0, M)` (40_modular_arithmetic.md R94). -/
def normalizeM (x : Int) : Nat := (normalize x modulus).toNat

/-- The sum of `bytes[k] * 256^(i+k)`: `blockToInteger` with its index running from `i`. -/
def blockToIntegerFrom (i : Nat) : List Byte → Nat
  | [] => 0
  | byte :: bytes => byte.toNat * weight i + blockToIntegerFrom (i + 1) bytes

/-- `blockToInteger(bytes)` (41_converter.md R121). -/
def blockToInteger (bytes : List Byte) : Nat := blockToIntegerFrom 0 bytes

/-- `n` turns of the loop of `integerToBlock`: `value mod 256`, then `value ← value div 256` (41_converter.md R122). -/
def integerDigits : Nat → Nat → List Byte
  | 0, _ => []
  | n + 1, v => BitVec.ofNat 8 (v % Config.radix) :: integerDigits n (v / Config.radix)

/-- `integerToBlock(value)`: exactly ten bytes (41_converter.md R122). -/
def integerToBlock (v : Nat) : List Byte := integerDigits Config.blockBytes v

/-- `encBlock(v, a, b) = (a*v + b) mod M` (42_cipher.md R140). -/
def encBlock (v a b : Nat) : Nat := (a * v + b) % modulus

/-- `decBlock(v, b, invA) = (((v - b) mod M) * invA) mod M` (42_cipher.md R140). -/
def decBlock (v b invA : Nat) : Nat := normalizeM ((v : Int) - b) * invA % modulus

end Sys2Proof.Machine
end

