-- ==== Sys2Proof/Machine/Ops.lean ====
section
/-! DEFINITION. The named operations over the buffer and the registers, the response of a command, raising a fault
(60_exceptions.md R183: the whole of trap entry, R189), the refusal of a halted core (R184, R186) and the recovery
INIT makes (R190). Every register write of a command goes through one of these. -/

namespace Sys2Proof.Machine

/-- One cell of the buffer (10_state.md R30). -/
def Memory.read : Memory → Nat → Byte
  | [], _ => Memory.unlisted
  | (k, v) :: m, a => if a = k then v else Memory.read m a

/-- The buffer with the cell `a` no longer listed. -/
def Memory.erase : Memory → Nat → Memory
  | [], _ => []
  | (k, v) :: m, a => if a = k then m else (k, v) :: Memory.erase m a

/-- The buffer with the cell `a` listed as `v`, in its place in the order. -/
def Memory.insert : Memory → Nat → Byte → Memory
  | [], a, v => [(a, v)]
  | (k, w) :: m, a, v =>
    if a < k then (a, v) :: (k, w) :: m
    else if a = k then (a, v) :: m
    else (k, w) :: Memory.insert m a v

/-- Write one cell, keeping the canonical form. -/
def Memory.write (m : Memory) (a : Nat) (v : Byte) : Memory :=
  if v = Memory.unlisted then Memory.erase m a else Memory.insert m a v

/-- `MemRead(addr, n)`: the integer of `n` bytes from `addr`, the lowest first (00_scope.md R15). -/
def memRead (m : Memory) (addr : Nat) : Nat → Nat
  | 0 => 0
  | n + 1 => memRead m addr n + (Memory.read m (addr + n)).toNat * weight n

/-- `MemWrite(addr, n, v)`: byte `i` of `v` into cell `addr + i`, for `i` in `0..n-1` (00_scope.md R15). -/
def memWrite (m : Memory) (addr : Nat) : Nat → Nat → Memory
  | 0, _ => m
  | n + 1, v => Memory.write (memWrite m addr n v) (addr + n) (BitVec.ofNat 8 (v / weight n % Config.radix))

/-- `A <- a; AV <- 1` (10_state.md R21, R27). -/
def State.putA (a : Word) (s : State) : State := { s with a := a, av := true }

/-- `INVA <- 0; P <- 0; INVV <- 0; G <- 0`: what was computed for the old multiplier (42_cipher.md R143). -/
def State.clearDerived (s : State) : State := { s with inva := 0, p := 0, invv := false, g := 0 }

/-- `B <- b; BV <- 1` (10_state.md R22, R28). -/
def State.putB (b : Word) (s : State) : State := { s with b := b, bv := true }

/-- `X <- v` (10_state.md R24). -/
def State.putX (v : Word) (s : State) : State := { s with x := v }

/-- `G <- g`, 81 bits (10_state.md R25). -/
def State.putG (g : Nat) (s : State) : State := { s with g := BitVec.ofNat 81 g }

/-- `P <- sext_82(p); INVA <- normalize(p, M); INVV <- 1` (40_modular_arithmetic.md R101). -/
def State.putInverse (p : Int) (s : State) : State :=
  { s with p := BitVec.ofInt 82 p, inva := BitVec.ofNat 80 (normalizeM p), invv := true }

/-- `BUF <- m` (10_state.md R30). -/
def State.putBuf (m : Memory) (s : State) : State := { s with buf := m }

/-- The block integer of the LEN valid bytes (41_converter.md R128). -/
def State.blockInteger (s : State) : Nat := memRead s.buf 0 s.len.val

/-- `X <- v; MemWrite(0, 10, v)` (42_cipher.md R148, R149). -/
def State.putBlock (v : Nat) (s : State) : State := (s.putX (BitVec.ofNat 80 v)).putBuf (memWrite s.buf 0 Config.blockBytes v)

/-- `LEN <- n` (10_state.md R31). -/
def State.putLen (n : Fin 11) (s : State) : State := { s with len := n }

/-- `if ERR = 0 then ERR <- c`: the first fault wins (10_state.md R32, 60_exceptions.md R183). -/
def State.recordFault (c : Cause) (s : State) : State :=
  { s with err := match s.err with
      | none => some c
      | some first => some first }

/-- `respond(code, data)`: the one response of the command (00_scope.md R16, 30_encoding.md R78). -/
def State.respond (code : Code) (data : Data) (s : State) : State := { s with rsps := ⟨code, data⟩ :: s.rsps }

/-- `respond(0, 0)`: how a command ends that does not say otherwise (00_scope.md R16). -/
def State.complete (s : State) : State := s.respond .completed 0

/-- `raise F` (60_exceptions.md R183): taking a fault. ERR records it if it is the first, the response carries its
code, control stays with the host (R189). -/
def raise (c : Cause) (s : State) : State := (s.recordFault c).respond (.raised c) 0

/-- The answer of a halted core to a command it refuses (60_exceptions.md R184): code 7 and no change at all. -/
def refuseHalted (s : State) : State := s.respond .halted 0

/-- The prologue of every command but NOP, INIT and RD (60_exceptions.md R186): refused while halted, else the rule
of the command. -/
def unlessHalted (rule : State → State) (s : State) : Host.Outcome State Fault Refusal :=
  match s.err with
  | none => .next (rule s)
  | some _ => .next (refuseHalted s)

/-- The prologue of NOP, INIT and RD, which run while halted (60_exceptions.md R184, R186). -/
def evenHalted (rule : State → State) (s : State) : Host.Outcome State Fault Refusal := .next (rule s)

/-- Every piece of architectural state at its reset value (10_state.md R40): what INIT does to the machine
(43_system.md R171) and the only return from a fault beside reset (60_exceptions.md R190). The host's side of the
ports is not architectural state and stays. -/
def State.startRun (s : State) : State :=
  { State.reset with resetDone := s.resetDone, moves := s.moves, rsps := s.rsps }

/-- The next waiting move is taken: `moves` lie after it. -/
def State.takeMove (moves : List HostMove) (s : State) : State := { s with moves := moves }

/-- Reset asserted (70_reset_and_hazards.md R210): every piece of architectural state takes its reset value, the core
is idle, and no response is produced; from then on a first reset has happened. -/
def State.assertReset (s : State) : State := { s.startRun with resetDone := true }

end Sys2Proof.Machine
end

