-- ==== Sys2Proof/Machine/Flags.lean ====
section
/-! DEFINITION. The codes of faults and responses, the STATUS view and the tests of the validity flags. There is no
arithmetic condition code (10_state.md section 4). -/

namespace Sys2Proof.Machine

/-- The code of a fault cause (60_exceptions.md R181). -/
def Cause.code : Cause → Byte
  | .illegalCommand => 1
  | .notInvertible => 2
  | .keyNotLoaded => 3
  | .blockOverflow => 4
  | .badLength => 5
  | .badIndex => 6
  | .inverseNotReady => 8

/-- The CODE field of a response as its 8 bits (30_encoding.md R78, 60_exceptions.md R181). -/
def Code.byte : Code → Byte
  | .completed => 0
  | .raised cause => cause.code
  | .halted => 7

/-- The 104 bits of a response (30_encoding.md R78). DESIGN CHOICE (log entry 14): CODE lies above DATA. The spec gives
the two fields and their widths and no order; on the port they are two buses (R82). -/
def Response.bits (r : Response) : BitVec 104 := r.code.byte ++ r.data

/-- ERR as its 8 bits (10_state.md R32). -/
def State.errByte (s : State) : Byte :=
  match s.err with
  | none => 0
  | some cause => cause.code

/-- STATUS (10_state.md R34), from bit 95 down: 80 reserved zeros, LEN in 15:12, a reserved zero, INVV, BV, AV, and
ERR in 7:0. -/
def State.status (s : State) : Data :=
  (0 : BitVec 80) ++ BitVec.ofNat 4 s.len.val ++ (0 : BitVec 1) ++ BitVec.ofBool s.invv ++ BitVec.ofBool s.bv
    ++ BitVec.ofBool s.av ++ s.errByte

/-- The multiplier is loaded: GCD and MODINV need it (10_state.md R27). -/
def State.multiplierLoaded (s : State) : Bool := s.av

/-- Both parameters are loaded: ENC and ENCBLK need them, tested as one condition (60_exceptions.md R187). -/
def State.encryptionKeyLoaded (s : State) : Bool := s.av && s.bv

/-- The addend is loaded: DEC and DECBLK test it first (60_exceptions.md R187). -/
def State.addendLoaded (s : State) : Bool := s.bv

/-- INVA holds the inverse of the current A: DEC and DECBLK test it second (10_state.md R29). -/
def State.inverseReady (s : State) : Bool := s.invv

/-- The check before GCD and MODINV (40_modular_arithmetic.md R100, R101). -/
def withMultiplier (rule : State → State) (s : State) : State :=
  if s.multiplierLoaded then rule s else raise .keyNotLoaded s

/-- The checks before an encryption (42_cipher.md R146, R148). -/
def withEncryptionKey (rule : State → State) (s : State) : State :=
  if s.encryptionKeyLoaded then rule s else raise .keyNotLoaded s

/-- The checks before a decryption, the addend first (42_cipher.md R147, R149, 60_exceptions.md R187). -/
def withDecryptionKey (rule : State → State) (s : State) : State :=
  if !s.addendLoaded then raise .keyNotLoaded s
  else if !s.inverseReady then raise .inverseNotReady s
  else rule s

end Sys2Proof.Machine
end

