-- ==== Sys2Proof/WellFormed.lean ====
section
/-! DEFINITION. Commands as a programmer writes them (30_encoding.md R80, R81), with operands that are plain numbers,
and the check an assembler makes of them: an operand must fit its field. Every term of `Instr` is well-formed by its
types (ARG is a byte, IMM an 80-bit value, and every value of either field is an encodable operand, R73), so the
check stands where an ill-formed command can be written at all: in front of the encoder. -/

namespace Sys2Proof

/-- The names the operand of RD may be written by (30_encoding.md R80). -/
inductive RegName where
  | status | a | b | inva | x | g | p
  deriving DecidableEq, Repr

/-- One line of assembler text without its comment (30_encoding.md R80) or a pseudo-instruction (R81). -/
inductive SourceLine where
  | nop
  | init
  | rd (reg : Nat)
  | rdName (reg : RegName)
  | lda (a : Nat)
  | ldb (b : Nat)
  | ldx (v : Nat)
  | gcd
  | modinv
  | setlen (n : Nat)
  | pushb (byte : Nat)
  | rdb (index : Nat)
  | b2i
  | i2b
  | enc
  | dec
  | encblk
  | decblk
  /-- `CLRB`: begin a new block (30_encoding.md R81). -/
  | clrb
  /-- `LDBLK b0, b1, ..., b(n-1)` with n in 0..10: load a block of n bytes (30_encoding.md R81). -/
  | ldblk (bytes : List Nat)
  /-- `LDKEY a, b`: load the cipher parameters (30_encoding.md R81). -/
  | ldkey (a b : Nat)
  /-- `RDBLK`: read a block out; no fixed expansion, the host must know LEN (30_encoding.md R81), so LEN is written. -/
  | rdblk (len : Nat)
  deriving DecidableEq, Repr

/-- An ARG operand must be at most 255 (30_encoding.md R80). -/
def fitsArg (n : Nat) : Bool := decide (n ≤ 255)

/-- An IMM operand must be below `2^80` (30_encoding.md R80). -/
def fitsImm (n : Nat) : Bool := decide (n < 2 ^ 80)

/-- The assembler's check (30_encoding.md R80, R81): operands fit their fields; a block has at most ten bytes.
SETLEN 11, RDB 200 and RD 9 pass: they are encodable words that fault when executed. -/
def SourceLine.wellFormed : SourceLine → Bool
  | .rd reg => fitsArg reg
  | .lda a => fitsImm a
  | .ldb b => fitsImm b
  | .ldx v => fitsImm v
  | .setlen n => fitsArg n
  | .pushb byte => fitsArg byte
  | .rdb index => fitsArg index
  | .ldblk bytes => decide (bytes.length ≤ 10) && bytes.all fitsArg
  | .ldkey a b => fitsImm a && fitsImm b
  | .rdblk len => decide (len ≤ 10)
  | .nop => true
  | .init => true
  | .rdName _ => true
  | .gcd => true
  | .modinv => true
  | .b2i => true
  | .i2b => true
  | .enc => true
  | .dec => true
  | .encblk => true
  | .decblk => true
  | .clrb => true

end Sys2Proof
end

