-- ==== Sys2Proof/Machine/Operands.lean ====
section
/-! DEFINITION. The operand forms (30_encoding.md R72, R73) and what each may name: a wide operand is any 80-bit
value; an ARG is a block length, a byte, a buffer index or a register number, and a command that cannot use the value
of its ARG gets none here and raises the fault its rule names. -/

namespace Sys2Proof.Machine

/-- ARG as a block length: 0 to 10 (41_converter.md R124). -/
def blockLength (n : Byte) : Option (Fin 11) := if h : n.toNat < 11 then some ⟨n.toNat, h⟩ else none

/-- The address PUSHB stores at and LEN after it, none when the buffer holds ten bytes (41_converter.md R125). -/
def pushSlot (s : State) : Option (Nat × Fin 11) :=
  if h : s.len.val + 1 < 11 then some (s.len.val, ⟨s.len.val + 1, h⟩) else none

/-- ARG as a buffer index: only the cells below LEN can be read (41_converter.md R127). -/
def bufferIndex (index : Byte) (s : State) : Option Nat :=
  if index.toNat < s.len.val then some index.toNat else none

/-- ARG as a register number: the value RD returns, none for the numbers 7 to 255 (10_state.md R35). P is
sign-extended, every other register zero-extended. -/
def registerView (reg : Byte) (s : State) : Option Data :=
  match reg with
  | 0 => some s.status
  | 1 => some (s.a.setWidth 96)
  | 2 => some (s.b.setWidth 96)
  | 3 => some (s.inva.setWidth 96)
  | 4 => some (s.x.setWidth 96)
  | 5 => some (s.g.setWidth 96)
  | 6 => some (s.p.signExtend 96)
  | _ => none

/-- The register number a name stands for (30_encoding.md R80). -/
def registerNumber : RegName → Byte
  | .status => 0
  | .a => 1
  | .b => 2
  | .inva => 3
  | .x => 4
  | .g => 5
  | .p => 6

end Sys2Proof.Machine
end

