-- ==== Sys2Proof/Machine/Cipher.lean ====
section
/-! DEFINITION. The affine block cipher: LDA, LDB, LDX, ENC, DEC, ENCBLK, DECBLK (42_cipher.md R143 to R149). -/

namespace Sys2Proof.Machine

/-- LDA a (42_cipher.md R143). -/
def execLda (a : Word) (s : State) : Host.Outcome State Fault Refusal :=
  unlessHalted (fun s => (s.putA a).clearDerived.complete) s

/-- LDB b (42_cipher.md R144). -/
def execLdb (b : Word) (s : State) : Host.Outcome State Fault Refusal :=
  unlessHalted (fun s => (s.putB b).complete) s

/-- LDX v (42_cipher.md R145). -/
def execLdx (v : Word) (s : State) : Host.Outcome State Fault Refusal :=
  unlessHalted (fun s => (s.putX v).complete) s

/-- `(A*v + B) mod M` (42_cipher.md R146). -/
def State.encrypted (v : Nat) (s : State) : Nat := encBlock v s.a.toNat s.b.toNat

/-- `(((v - B) mod M) * INVA) mod M` (42_cipher.md R147). -/
def State.decrypted (v : Nat) (s : State) : Nat := decBlock v s.b.toNat s.inva.toNat

/-- ENC (42_cipher.md R146). -/
def execEnc (s : State) : Host.Outcome State Fault Refusal :=
  unlessHalted (withEncryptionKey fun s => (s.putX (BitVec.ofNat 80 (s.encrypted s.x.toNat))).complete) s

/-- DEC (42_cipher.md R147). -/
def execDec (s : State) : Host.Outcome State Fault Refusal :=
  unlessHalted (withDecryptionKey fun s => (s.putX (BitVec.ofNat 80 (s.decrypted s.x.toNat))).complete) s

/-- ENCBLK (42_cipher.md R148). -/
def execEncblk (s : State) : Host.Outcome State Fault Refusal :=
  unlessHalted (withEncryptionKey fun s => (s.putBlock (s.encrypted s.blockInteger)).complete) s

/-- DECBLK (42_cipher.md R149). -/
def execDecblk (s : State) : Host.Outcome State Fault Refusal :=
  unlessHalted (withDecryptionKey fun s => (s.putBlock (s.decrypted s.blockInteger)).complete) s

end Sys2Proof.Machine
end

