-- ==== Sys2Proof/Machine/Converter.lean ====
section
/-! DEFINITION. The little-endian converter: SETLEN, PUSHB, RDB, B2I, I2B (41_converter.md R124 to R129). -/

namespace Sys2Proof.Machine

/-- SETLEN n (41_converter.md R124). -/
def execSetlen (n : Byte) (s : State) : Host.Outcome State Fault Refusal :=
  unlessHalted (fun s =>
    match blockLength n with
    | some length => (s.putLen length).complete
    | none => raise .badLength s) s

/-- PUSHB byte (41_converter.md R125). -/
def execPushb (byte : Byte) (s : State) : Host.Outcome State Fault Refusal :=
  unlessHalted (fun s =>
    match pushSlot s with
    | some (addr, length) => ((s.putBuf (Memory.write s.buf addr byte)).putLen length).complete
    | none => raise .blockOverflow s) s

/-- RDB index (41_converter.md R127). -/
def execRdb (index : Byte) (s : State) : Host.Outcome State Fault Refusal :=
  unlessHalted (fun s =>
    match bufferIndex index s with
    | some addr => s.respond .completed ((Memory.read s.buf addr).setWidth 96)
    | none => raise .badIndex s) s

/-- B2I (41_converter.md R128). -/
def execB2i (s : State) : Host.Outcome State Fault Refusal :=
  unlessHalted (fun s => (s.putX (BitVec.ofNat 80 s.blockInteger)).complete) s

/-- I2B (41_converter.md R129). -/
def execI2b (s : State) : Host.Outcome State Fault Refusal :=
  unlessHalted (fun s => (s.putBuf (memWrite s.buf 0 Config.blockBytes s.x.toNat)).complete) s

end Sys2Proof.Machine
end

