-- ==== Sys2Proof/Machine/ModularInverse.lean ====
section
/-! DEFINITION. The modular inverse engine: GCD and MODINV (40_modular_arithmetic.md R100 to R103). The second operand
is always M (R108). -/

namespace Sys2Proof.Machine

/-- What MODINV does with the gcd and the coefficient: G is written in both cases (40_modular_arithmetic.md R101 to
R103). -/
def takeInverse (gp : Nat × Int) (s : State) : State :=
  if gp.1 = 1 then ((s.putG gp.1).putInverse gp.2).complete else raise .notInvertible (s.putG gp.1)

/-- GCD (40_modular_arithmetic.md R100). -/
def execGcd (s : State) : Host.Outcome State Fault Refusal :=
  unlessHalted (withMultiplier fun s => (s.putG (gcdOf s.a.toNat modulus)).complete) s

/-- MODINV (40_modular_arithmetic.md R101). -/
def execModinv (s : State) : Host.Outcome State Fault Refusal :=
  unlessHalted (withMultiplier fun s => takeInverse (xgcd s.a.toNat modulus) s) s

end Sys2Proof.Machine
end

