-- ==== Sys2Proof/Machine/System.lean ====
section
/-! DEFINITION. The system commands NOP, INIT and RD (43_system.md R170 to R172): the three that run while halted. -/

namespace Sys2Proof.Machine

/-- NOP (43_system.md R170). -/
def execNop (s : State) : Host.Outcome State Fault Refusal := evenHalted State.complete s

/-- INIT (43_system.md R171). -/
def execInit (s : State) : Host.Outcome State Fault Refusal := evenHalted (fun s => s.startRun.complete) s

/-- RD reg (43_system.md R172). -/
def execRd (reg : Byte) (s : State) : Host.Outcome State Fault Refusal :=
  evenHalted (fun s =>
    match registerView reg s with
    | some value => s.respond .completed value
    | none => raise .badIndex s) s

end Sys2Proof.Machine
end

