-- ==== Sys2Proof/Machine/Dispatch.lean ====
section
/-! DEFINITION. The dispatch of a decoded command to its meaning, one arm per constructor of Instr. -/

namespace Sys2Proof.Machine

def exec (i : Instr) (s : State) : Host.Outcome State Fault Refusal :=
  match i with
  | .nop => Sys2Proof.Machine.execNop s
  | .init => Sys2Proof.Machine.execInit s
  | .rd reg => Sys2Proof.Machine.execRd reg s
  | .lda a => Sys2Proof.Machine.execLda a s
  | .ldb b => Sys2Proof.Machine.execLdb b s
  | .ldx v => Sys2Proof.Machine.execLdx v s
  | .gcd => Sys2Proof.Machine.execGcd s
  | .modinv => Sys2Proof.Machine.execModinv s
  | .setlen n => Sys2Proof.Machine.execSetlen n s
  | .pushb byte => Sys2Proof.Machine.execPushb byte s
  | .rdb index => Sys2Proof.Machine.execRdb index s
  | .b2i => Sys2Proof.Machine.execB2i s
  | .i2b => Sys2Proof.Machine.execI2b s
  | .enc => Sys2Proof.Machine.execEnc s
  | .dec => Sys2Proof.Machine.execDec s
  | .encblk => Sys2Proof.Machine.execEncblk s
  | .decblk => Sys2Proof.Machine.execDecblk s

end Sys2Proof.Machine
end

