-- ==== Sys2Proof/Machine/Intake.lean ====
section
/-! DEFINITION. Taking the host's next move, and executing a command word (60_exceptions.md R186), written over any
meaning of the decoded commands so that Step.lean only names exec. -/

namespace Sys2Proof.Machine

/-- What the host's side offers the core: nothing, a reset or a word, with the state after the move is taken; or
anything but a reset before the first one. -/
inductive Offer where
  | idle
  | unreset
  | reset (s : State)
  | word (w : CommandWord) (s : State)

/-- The next move of the host, taken in order (30_encoding.md R70, 70_reset_and_hazards.md R212). -/
def nextMove (s : State) : Offer :=
  match s.moves with
  | .reset :: moves => .reset (s.takeMove moves)
  | .command w :: moves => if s.resetDone then .word w (s.takeMove moves) else .unreset
  | [] => if s.resetDone then .idle else .unreset

/-- The outcome of an illegal word (60_exceptions.md R185, R186): IllegalCommand, or code 7 while halted. -/
def executeIllegal (s : State) : Host.Outcome State Fault Refusal := unlessHalted (raise .illegalCommand) s

/-- `execute(w)` (60_exceptions.md R186): decode, then the command's rule behind its prologue, or IllegalCommand. -/
def executeWord (meaning : Instr → State → Host.Outcome State Fault Refusal) (w : CommandWord) (s : State) :
    Host.Outcome State Fault Refusal :=
  match decode w with
  | .ok i => meaning i s
  | .error _ => executeIllegal s

end Sys2Proof.Machine
end

