-- ==== Sys2Proof/Machine/Step.lean ====
section
/-! DEFINITION. One step of the core: the host's next move, executed to completion (30_encoding.md R70). -/

namespace Sys2Proof.Machine

/-- One step: the next move of the host, or idle while there is none (60_exceptions.md R201). Before the first reset
only a reset has a meaning (70_reset_and_hazards.md R212). -/
def step (s : State) : Host.Outcome State Fault Refusal :=
  match nextMove s with
  | .idle => .next s
  | .unreset => .refused .beforeFirstReset
  | .reset t => .next t.assertReset
  | .word w t => executeWord exec w t

/-- `s` with the command word `w` first in line, for the host's opcode-table check: the core has no program and no
program counter (10_state.md R33), so the word is presented as the host's next move, to a core that has been reset. -/
def State.withFetchWord (s : State) (nbits w : Nat) : State :=
  { s with resetDone := true, moves := .command (BitVec.ofNat 96 (w % 2 ^ nbits)) :: s.moves }

end Sys2Proof.Machine
end

