-- ==== Sys2Proof/Machine/Assembler.lean ====
section
/-! DEFINITION. The assembler notation (30_encoding.md R80) and the pseudo-instructions (R81): from a line of text to
a source line, and from a well-formed source line to its commands. -/

namespace Sys2Proof.Machine

/-- The expansion of a source line whose operands fit (30_encoding.md R81). -/
def expandFitting : SourceLine → List Instr
  | .nop => [.nop]
  | .init => [.init]
  | .rd reg => [.rd (BitVec.ofNat 8 reg)]
  | .rdName reg => [.rd (registerNumber reg)]
  | .lda a => [.lda (BitVec.ofNat 80 a)]
  | .ldb b => [.ldb (BitVec.ofNat 80 b)]
  | .ldx v => [.ldx (BitVec.ofNat 80 v)]
  | .gcd => [.gcd]
  | .modinv => [.modinv]
  | .setlen n => [.setlen (BitVec.ofNat 8 n)]
  | .pushb byte => [.pushb (BitVec.ofNat 8 byte)]
  | .rdb index => [.rdb (BitVec.ofNat 8 index)]
  | .b2i => [.b2i]
  | .i2b => [.i2b]
  | .enc => [.enc]
  | .dec => [.dec]
  | .encblk => [.encblk]
  | .decblk => [.decblk]
  | .clrb => [.setlen 0]
  | .ldblk bytes => .setlen 0 :: bytes.map fun byte => .pushb (BitVec.ofNat 8 byte)
  | .ldkey a b => [.lda (BitVec.ofNat 80 a), .ldb (BitVec.ofNat 80 b)]
  | .rdblk len => (List.range len).map fun index => .rdb (BitVec.ofNat 8 index)

/-- The assembler: a line whose operand does not fit its field is rejected (30_encoding.md R80). -/
def expand (line : SourceLine) : Option (List Instr) :=
  if line.wellFormed then some (expandFitting line) else none

/-- The command words of a line. -/
def assemble (line : SourceLine) : Option (List CommandWord) := (expand line).map fun is => is.map encode

/-- The decimal digits, each at the index that is its value. -/
def decimalDigits : List Char := ['0', '1', '2', '3', '4', '5', '6', '7', '8', '9']

/-- The letters that stand for 10 to 15 in a hexadecimal literal, in capitals (00_scope.md R13). -/
def hexCapitals : List Char := ['A', 'B', 'C', 'D', 'E', 'F']

/-- The same letters in lower case (log entry 11). -/
def hexSmallLetters : List Char := hexCapitals.map Char.toLower

/-- The value of a decimal digit. -/
def decimalDigit (c : Char) : Option Nat := decimalDigits.idxOf? c

/-- The value of a hexadecimal digit. -/
def hexDigit (c : Char) : Option Nat :=
  match (decimalDigits ++ hexCapitals).idxOf? c with
  | some value => some value
  | none => (decimalDigits ++ hexSmallLetters).idxOf? c

/-- The number of a run of digits, the most significant first, on top of `high`. -/
def digitsFrom (radix : Nat) (digit : Char → Option Nat) (high : Nat) : List Char → Option Nat
  | [] => some high
  | c :: cs =>
    match digit c with
    | some d => digitsFrom radix digit (high * radix + d) cs
    | none => none

/-- A literal: decimal, or hexadecimal after `0x`, where `_` separates digits (30_encoding.md R80, 00_scope.md R13). -/
def literal : List Char → Option Nat
  | '0' :: 'x' :: cs =>
    match cs.filter fun c => c != '_' with
    | [] => none
    | digits => digitsFrom 16 hexDigit 0 digits
  | [] => none
  | cs => digitsFrom 10 decimalDigit 0 cs

/-- All the literals of a list of operands. -/
def literals : List (List Char) → Option (List Nat)
  | [] => some []
  | operand :: operands =>
    match literal operand, literals operands with
    | some n, some ns => some (n :: ns)
    | _, _ => none

/-- The register names of RD (30_encoding.md R80). -/
def regName : List Char → Option RegName
  | ['S', 'T', 'A', 'T', 'U', 'S'] => some .status
  | ['A'] => some .a
  | ['B'] => some .b
  | ['I', 'N', 'V', 'A'] => some .inva
  | ['X'] => some .x
  | ['G'] => some .g
  | ['P'] => some .p
  | _ => none

/-- A blank character of a line. -/
def isBlank (c : Char) : Bool := c == ' ' || c == '\t'

/-- The characters with the blanks at both ends gone. -/
def trim (cs : List Char) : List Char := ((cs.dropWhile isBlank).reverse.dropWhile isBlank).reverse

/-- The operands between commas, each trimmed. -/
def operandsOf (rest : List Char) : List (List Char) :=
  match trim rest with
  | [] => []
  | cs => (cs.splitOn ',').map trim

/-- A command from its mnemonic and its operands. -/
def sourceLine (mnemonic : String) (operands : List (List Char)) : Option SourceLine :=
  match literals operands with
  | some [] =>
    match mnemonic with
    | "NOP" => some .nop
    | "INIT" => some .init
    | "GCD" => some .gcd
    | "MODINV" => some .modinv
    | "B2I" => some .b2i
    | "I2B" => some .i2b
    | "ENC" => some .enc
    | "DEC" => some .dec
    | "ENCBLK" => some .encblk
    | "DECBLK" => some .decblk
    | "CLRB" => some .clrb
    | "LDBLK" => some (.ldblk [])
    | _ => none
  | some [n] =>
    match mnemonic with
    | "RD" => some (.rd n)
    | "LDA" => some (.lda n)
    | "LDB" => some (.ldb n)
    | "LDX" => some (.ldx n)
    | "SETLEN" => some (.setlen n)
    | "PUSHB" => some (.pushb n)
    | "RDB" => some (.rdb n)
    | "LDBLK" => some (.ldblk [n])
    | _ => none
  | some ns =>
    match mnemonic, ns with
    | "LDKEY", [a, b] => some (.ldkey a b)
    | "LDBLK", bytes => some (.ldblk bytes)
    | _, _ => none
  | none =>
    match mnemonic, operands with
    | "RD", [name] => (regName name).map .rdName
    | _, _ => none

/-- One line of text (30_encoding.md R80): `some none` for a line with nothing but blanks or a comment, none for a
line that is no command. RDBLK is not read from text: it is no fixed expansion, the host must know LEN (R81). -/
def parseLine (text : List Char) : Option (Option SourceLine) :=
  match trim (text.takeWhile fun c => c != ';') with
  | [] => some none
  | cs =>
    (sourceLine (String.ofList (cs.takeWhile fun c => !isBlank c)) (operandsOf (cs.dropWhile fun c => !isBlank c))).map
      some

end Sys2Proof.Machine
end

