-- ==== Sys2Proof/Machine/Procedures.lean ====
section
/-! DEFINITION. The host's reference procedures (42_cipher.md R157 to R161): how a stream is cut into blocks, which
commands realise one block and one run, and what the host does with the responses. The host is no agent of the model
(00_scope.md R5, R11): the procedures only present moves to the core and read what it answered. -/

namespace Sys2Proof.Machine

/-- The blocks of a stream: ten bytes each and a last one of the bytes that are left, if any (42_cipher.md R158). The
fuel is a bound on the number of blocks. -/
def cutBlocks : Nat → List Byte → List (List Byte)
  | 0, _ => []
  | _ + 1, [] => []
  | fuel + 1, bytes => bytes.take Config.blockBytes :: cutBlocks fuel (bytes.drop Config.blockBytes)

/-- The blocks of a stream; a stream of `N` bytes has at most `N` of them. -/
def streamBlocks (bytes : List Byte) : List (List Byte) := cutBlocks bytes.length bytes

/-- The commands of one block: load its bytes in stream order, transform, read its bytes out (42_cipher.md R158). -/
def blockCommands (transform : Instr) (block : List Byte) : List Instr :=
  .setlen 0 :: block.map .pushb ++ transform :: (List.range block.length).map fun k => .rdb (BitVec.ofNat 8 k)

/-- The reduction of a parameter into `[0, M)` before it is loaded: the host's duty (42_cipher.md R156, R159). -/
def reduceParameter (n : Int) : Word := BitVec.ofNat 80 (normalizeM n)

/-- The commands of the blocks of a stream, in stream order (42_cipher.md R158). -/
def streamCommands (transform : Instr) (stream : List Byte) : List Instr :=
  (streamBlocks stream).flatMap (blockCommands transform)

/-- What the host means to issue in one run: the commands before the first block, and those of the blocks, which it
issues only if the opening succeeds. -/
structure RunPlan where
  opening : List Instr
  blocks : List Instr
  deriving DecidableEq, Repr

/-- Start a run and load its parameters (42_cipher.md R157; log entry 13). -/
def keyCommands (a b : Int) : List Instr := [.init, .lda (reduceParameter a), .ldb (reduceParameter b)]

/-- The encryption of a stream (42_cipher.md R158). -/
def encryptPlan (a b : Int) (stream : List Byte) : RunPlan := ⟨keyCommands a b, streamCommands .encblk stream⟩

/-- The decryption of a stream: MODINV before the first block (42_cipher.md R160). -/
def decryptPlan (a b : Int) (stream : List Byte) : RunPlan :=
  ⟨keyCommands a b ++ [.modinv], streamCommands .decblk stream⟩

/-- What the host reports of commands it issued (42_cipher.md R158, R160). -/
inductive RunStatus where
  /-- The success indicator. -/
  | success
  /-- MODINV answered code 2. -/
  | notInvertible
  /-- Another command failed; the host stops the run (70_reset_and_hazards.md R225). -/
  | stopped (code : Code)
  deriving DecidableEq, Repr

/-- The report on a run of responses, oldest first: that of the first one whose code is not 0. -/
def statusOf : List Response → RunStatus
  | [] => .success
  | r :: later =>
    match r.code with
    | .completed => statusOf later
    | .raised .notInvertible => .notInvertible
    | code => .stopped code

/-- The bytes the host writes to the output: the DATA of each RDB, in order (42_cipher.md R158). -/
def bytesOut : List Instr → List Response → List Byte
  | .rdb _ :: commands, r :: rs => r.data.setWidth 8 :: bytesOut commands rs
  | _ :: commands, _ :: rs => bytesOut commands rs
  | [], _ => []
  | _, [] => []

/-- The commands as moves of the host. -/
def presented (commands : List Instr) : List HostMove := commands.map fun i => .command (encode i)

/-- The core after it has been presented the commands and has executed them. -/
def issue (commands : List Instr) (s : State) : Host.Outcome State Fault Refusal :=
  core.run commands.length { s with moves := presented commands }

/-- The responses to the last `n` commands, oldest first. -/
def lastResponses (n : Nat) (s : State) : List Response := (s.rsps.take n).reverse

/-- The end of a run: the core, the bytes written to the output and the host's report. -/
structure RunEnd where
  core : State
  output : List Byte
  status : RunStatus
  deriving DecidableEq, Repr

/-- The host looks at the responses to the opening before it goes on: if one is not code 0 (MODINV on a multiplier with
no inverse) it stops, no block command issued and nothing written (42_cipher.md R160 step 2); else it issues the block
commands and writes the bytes read out. -/
def hostRun (plan : RunPlan) (s : State) : Host.Outcome RunEnd Fault Refusal :=
  match issue plan.opening s with
  | .fault f => .fault f
  | .refused r => .refused r
  | .next t =>
    match statusOf (lastResponses plan.opening.length t) with
    | .success =>
      match issue plan.blocks t with
      | .fault f => .fault f
      | .refused r => .refused r
      | .next u =>
        let answers := lastResponses plan.blocks.length u
        .next { core := u, output := bytesOut plan.blocks answers, status := statusOf answers }
    | failure => .next { core := t, output := [], status := failure }

/-- The host's procedure for encryption (42_cipher.md R158). -/
def encryptRun (a b : Int) (stream : List Byte) (s : State) : Host.Outcome RunEnd Fault Refusal :=
  hostRun (encryptPlan a b stream) s

/-- The host's procedure for decryption (42_cipher.md R160). -/
def decryptRun (a b : Int) (stream : List Byte) (s : State) : Host.Outcome RunEnd Fault Refusal :=
  hostRun (decryptPlan a b stream) s

end Sys2Proof.Machine
end

