-- ==== Sys2Proof/Machine/Port.lean ====
section
/-! DEFINITION. The clock-level view of the ports (30_encoding.md R82, R83, 70_reset_and_hazards.md R210 to R213,
R221, R222): one rising edge of `clk` at a time, a command executed by the same `executeWord exec` as in the step. It
stands beside the command-level step and adds nothing to it; the busy bit, the accepted word and the pending response
it holds are no architectural state (10_state.md R37). -/

namespace Sys2Proof.Machine

/-- The input pins at one rising edge of `clk` (30_encoding.md R82). -/
structure Pins where
  rst : Bool
  cmdValid : Bool
  cmdWord : CommandWord
  rspReady : Bool
  deriving DecidableEq, Repr

/-- Idle, or one of the two parts of busy (70_reset_and_hazards.md R221). -/
inductive Phase where
  /-- Waiting for a command. -/
  | idle
  /-- The word is accepted; the response rises at the edge after `left` more edges. -/
  | executing (word : CommandWord) (left : Nat)
  /-- The response waits to be transferred. -/
  | responding (response : Response)
  deriving DecidableEq, Repr

/-- The core between two edges: the architectural state, with the responses already transferred, and the phase. -/
structure PortState where
  core : State
  phase : Phase
  deriving DecidableEq, Repr

/-- `cmd_ready` (30_encoding.md R83): 1 only when the core is idle. -/
def PortState.cmdReady (s : PortState) : Bool :=
  match s.phase with
  | .idle => true
  | .executing _ _ => false
  | .responding _ => false

/-- `rsp_valid`, `rsp_code` and `rsp_data` (30_encoding.md R83): the response while `rsp_valid` is 1, none while it is
0, where the spec leaves the other two pins unspecified (93_implementation_defined.md X9). -/
def PortState.rspBus (s : PortState) : Option (Byte × Data) :=
  match s.phase with
  | .idle => none
  | .executing _ _ => none
  | .responding r => some (r.code.byte, r.data)

/-- Completion of a command at an edge: all its writes take effect together (20_memory.md R58) and its response rises;
the response joins the transferred ones only when it is taken. -/
def finishCommand (before : State) : Host.Outcome State Fault Refusal → Host.Outcome PortState Fault Refusal
  | .next t =>
    match t.rsps with
    | r :: _ => .next { core := { t with rsps := before.rsps }, phase := .responding r }
    | [] => .next { core := t, phase := .idle }
  | .fault f => .fault f
  | .refused r => .refused r

/-- An edge with `rst` 0, by phase (30_encoding.md R83, 70_reset_and_hazards.md R222). -/
def runEdge (pins : Pins) (core : State) : Phase → Host.Outcome PortState Fault Refusal
  | .idle =>
    if pins.cmdValid then .next { core, phase := .executing pins.cmdWord (Config.extraCycles pins.cmdWord core) }
    else .next { core, phase := .idle }
  | .executing w (left + 1) => .next { core, phase := .executing w left }
  | .executing w 0 => finishCommand core (executeWord exec w core)
  | .responding r =>
    if pins.rspReady then .next { core := { core with rsps := r :: core.rsps }, phase := .idle }
    else .next { core, phase := .responding r }

/-- One rising edge of `clk`. `rst` wins over everything: the reset state, idle, the command under way abandoned and
its response dropped (70_reset_and_hazards.md R210, R211). Before the first reset nothing else has a meaning (R212). -/
def edge (pins : Pins) (s : PortState) : Host.Outcome PortState Fault Refusal :=
  if pins.rst then .next { core := s.core.assertReset, phase := .idle }
  else if s.core.resetDone then runEdge pins s.core s.phase
  else .refused .beforeFirstReset

/-- A run of edges, the first pins first, stopping at the first refusal. -/
def edges : List Pins → PortState → Host.Outcome PortState Fault Refusal
  | [], s => .next s
  | pins :: later, s =>
    match edge pins s with
    | .next t => edges later t
    | .fault f => .fault f
    | .refused r => .refused r

end Sys2Proof.Machine
end

