-- ==== Sys2Proof/Safety.lean ====
section
/-! DEFINITION. What counts as a good state and a safe step, in the terms the statements use: the invariants of
10_state.md R38, the running core, the architectural part of a state, and the table of R41. -/

namespace Sys2Proof.Machine

/-- The run is healthy: ERR is 0 (10_state.md R32). -/
def State.Running (s : State) : Prop := s.err = none

/-- Item 2 of 10_state.md R38, what `INVV = 1` implies. -/
def State.InverseGood (s : State) : Prop :=
  s.av = true ∧ s.a.toNat % 2 = 1 ∧ s.g = 1 ∧ s.a.toNat * s.inva.toNat % 2 ^ 80 = 1 ∧
    -2 ^ 79 < s.p.toInt ∧ s.p.toInt < 2 ^ 79 ∧ (s.inva.toNat : Int) = s.p.toInt % 2 ^ 80

/-- Item 5 of 10_state.md R38: G is 0 or a power of two up to `2^80`, and G not 0 is `gcd(A, M)` of a loaded A. -/
def State.GcdGood (s : State) : Prop :=
  (s.g = 0 ∨ ∃ k, k ≤ 80 ∧ s.g.toNat = 2 ^ k) ∧
    (s.g ≠ 0 → s.av = true ∧ s.g.toNat = Nat.gcd s.a.toNat (2 ^ 80))

/-- The invariants of 10_state.md R38 and the buffer's canonical form. Items 1 (`LEN ≤ 10`) and 6 (the values of ERR)
hold of every State by its types; they are said here as well. -/
def State.Inv (s : State) : Prop :=
  s.len.val ≤ 10 ∧
  (s.invv = true → s.InverseGood) ∧
  (s.invv = false → s.inva = 0 ∧ s.p = 0) ∧
  (s.av = false → s.a = 0 ∧ s.g = 0 ∧ s.invv = false) ∧
  (s.bv = false → s.b = 0) ∧
  s.GcdGood ∧
  s.errByte ∈ [0, 1, 2, 3, 4, 5, 6, 8] ∧
  Memory.wf s.buf = true

/-- The two states have the same architectural state (10_state.md R20). -/
def State.SameArchitecture (s t : State) : Prop :=
  s.a = t.a ∧ s.b = t.b ∧ s.inva = t.inva ∧ s.x = t.x ∧ s.g = t.g ∧ s.p = t.p ∧ s.av = t.av ∧ s.bv = t.bv ∧
    s.invv = t.invv ∧ s.buf = t.buf ∧ s.len = t.len ∧ s.err = t.err

/-- The step answers a next state: no stop. -/
def State.SafeStep (s : State) : Prop := ∃ t, step s = .next t

/-- The commands that run while the core is halted (60_exceptions.md R184). -/
def runsWhileHalted : Instr → Bool
  | .nop | .init | .rd _ => true
  | .lda _ | .ldb _ | .ldx _ | .gcd | .modinv | .setlen _ | .pushb _ | .rdb _ | .b2i | .i2b | .enc | .dec | .encblk
  | .decblk => false

/-- A move that can end a halted run: INIT or reset (60_exceptions.md R184, R190). -/
def endsRun : HostMove → Bool
  | .reset => true
  | .command w =>
    match decode w with
    | .ok .init => true
    | _ => false

/-- The columns of the table of 10_state.md R41, ERR apart (no command writes ERR when it does not fault, but INIT). -/
inductive Field where
  | a | b | inva | x | g | p | av | bv | invv | buf | len | err
  deriving DecidableEq, Repr

/-- The table of 10_state.md R41: does the command write the field when it does not fault? -/
def writesField : Instr → Field → Bool
  | .nop, _ => false
  | .init, _ => true
  | .rd _, _ => false
  | .lda _, f => decide (f ∈ [Field.a, .inva, .g, .p, .av, .invv])
  | .ldb _, f => decide (f ∈ [Field.b, .bv])
  | .ldx _, f => decide (f = Field.x)
  | .gcd, f => decide (f = Field.g)
  | .modinv, f => decide (f ∈ [Field.inva, .g, .p, .invv])
  | .setlen _, f => decide (f = Field.len)
  | .pushb _, f => decide (f ∈ [Field.buf, .len])
  | .rdb _, _ => false
  | .b2i, f => decide (f = Field.x)
  | .i2b, f => decide (f = Field.buf)
  | .enc, f => decide (f = Field.x)
  | .dec, f => decide (f = Field.x)
  | .encblk, f => decide (f ∈ [Field.x, .buf])
  | .decblk, f => decide (f ∈ [Field.x, .buf])

/-- The field has the same value in both states. -/
def State.agree (s t : State) : Field → Prop
  | .a => s.a = t.a
  | .b => s.b = t.b
  | .inva => s.inva = t.inva
  | .x => s.x = t.x
  | .g => s.g = t.g
  | .p => s.p = t.p
  | .av => s.av = t.av
  | .bv => s.bv = t.bv
  | .invv => s.invv = t.invv
  | .buf => s.buf = t.buf
  | .len => s.len = t.len
  | .err => s.err = t.err

end Sys2Proof.Machine
end

