-- ==== Sys2Proof/Certificates/Slice0/Obligations.lean ====
section
/-! DEFINITION. The statements for the provers. Each docstring names the rules of spec/ it formalises. A statement
about a command is an equation `exec … = .next …`: it gives the result, the frame (every field it does not name is
that of `s`) and completion at once. A rule that gives a command's word has it in its statement. -/

open Sys2Proof Sys2Proof.Machine

/-! ## Reset, the step and the ports -/

/-- 10_state.md R40: after a reset and after INIT, from any state, every piece of architectural state is zero. -/
def Obligations.ResetAndInitZeroEverything : Prop :=
  ∀ (s t : State),
    ((∃ moves, s.moves = .reset :: moves) ∧ step s = .next t) ∨ exec .init s = .next t →
      t.a = 0 ∧ t.b = 0 ∧ t.inva = 0 ∧ t.x = 0 ∧ t.g = 0 ∧ t.p = 0 ∧ t.av = false ∧ t.bv = false ∧ t.invv = false ∧
        (∀ i, i < 10 → Memory.read t.buf i = 0) ∧ t.len = 0 ∧ t.err = none

/-- 70_reset_and_hazards.md R210, R213: a reset is taken in any state, before the first one too, and leaves the reset
state with the rest of the host's moves; no response is produced for it. -/
def Obligations.ResetMoveGivesResetState : Prop :=
  ∀ (s : State) (moves : List HostMove), s.moves = .reset :: moves →
    step s = .next { State.reset with moves := moves, rsps := s.rsps }

/-- 10_state.md R38: the invariants hold in the reset state. Their clause on the buffer's form is the model's (log entry
5). -/
def Obligations.ResetStateMeetsInvariants : Prop := State.reset.Inv

/-- 10_state.md R38: every step keeps the invariants, from every state that meets them. Their clause on the buffer's
form is the model's (log entry 5). -/
def Obligations.StepKeepsInvariants : Prop :=
  ∀ (s t : State), s.Inv → step s = .next t → t.Inv

/-- 10_state.md R38: the invariants hold in every state reachable from reset by any sequence of moves. Their clause on
the buffer's canonical form is the model's choice (log entry 5). -/
def Obligations.ReachableStatesMeetInvariants : Prop :=
  ∀ (moves : List HostMove) (k : Nat) (t : State),
    Host.Core.run core k { State.reset with moves := moves } = .next t → t.Inv

/-- The buffer keeps its canonical form (log entry 5: the model's own form of 20_memory.md R59). -/
def Obligations.StepKeepsBufferCanonical : Prop :=
  ∀ (s t : State), Memory.wf s.buf = true → step s = .next t → Memory.wf t.buf = true

/-- 30_encoding.md R70, 60_exceptions.md R186: a waiting word that decodes to a command is taken and executed as that
command, with the moves after it still waiting. -/
def Obligations.StepRunsDecodedCommand : Prop :=
  ∀ (s : State) (w : CommandWord) (moves : List HostMove) (i : Instr),
    s.resetDone = true → s.moves = .command w :: moves → decode w = .ok i →
      step s = exec i { s with moves := moves }

/-- The word placed by `withFetchWord` is the one the very next step executes (log entry 1: the model's own port). -/
def Obligations.PlacedWordIsExecutedNext : Prop :=
  ∀ (s : State) (i : Instr),
    step (s.withFetchWord 96 (encode i).toNat) = exec i { s with resetDone := true }

/-- 60_exceptions.md R185: a word that decodes to illegal, on a core not halted, raises IllegalCommand and writes
nothing but ERR; the rule's two examples are such words. -/
def Obligations.IllegalWordRaisesIllegalCommand : Prop :=
  (∀ (s : State) (w : CommandWord) (moves : List HostMove) (why : Illegal),
    s.resetDone = true → s.moves = .command w :: moves → decode w = .error why → s.err = none →
      step s = .next { s with moves := moves, err := some .illegalCommand,
                              rsps := ⟨.raised .illegalCommand, 0⟩ :: s.rsps }) ∧
  (∃ why, decode 0x440000000000000000000000 = .error why) ∧ (∃ why, decode 0x000100000000000000000000 = .error why)

/-- 60_exceptions.md R184, R186: while ERR is not 0 every command but NOP, INIT and RD, and every illegal word, is
refused with code 7 and changes nothing; NOP, RD and INIT execute as they do on a running core. -/
def Obligations.HaltedCoreRefuses : Prop :=
  ∀ (s : State) (first : Cause), s.err = some first →
    (∀ i : Instr, i ≠ .nop → i ≠ .init → (∀ reg, i ≠ .rd reg) →
      exec i s = .next { s with rsps := ⟨.halted, 0⟩ :: s.rsps }) ∧
    (∀ (w : CommandWord) (moves : List HostMove) (why : Illegal),
      s.resetDone = true → s.moves = .command w :: moves → decode w = .error why →
        step s = .next { s with moves := moves, rsps := ⟨.halted, 0⟩ :: s.rsps }) ∧
    exec .nop s = .next { s with rsps := ⟨.completed, 0⟩ :: s.rsps } ∧
    exec .init s = .next { State.reset with resetDone := s.resetDone, moves := s.moves,
                                            rsps := ⟨.completed, 0⟩ :: s.rsps } ∧
    (∀ (reg : Byte) (value : Data), registerView reg s = some value →
      exec (.rd reg) s = .next { s with rsps := ⟨.completed, value⟩ :: s.rsps }) ∧
    ∀ reg : Byte, registerView reg s = none →
      exec (.rd reg) s = .next { s with rsps := ⟨.raised .badIndex, 0⟩ :: s.rsps }

/-- 30_encoding.md R70, R78, 60_exceptions.md R186, 70_reset_and_hazards.md R224: every waiting word in every state
after a first reset is taken and gets exactly one response, in one step. -/
def Obligations.EveryWordGetsOneResponse : Prop :=
  ∀ (s : State) (w : CommandWord) (moves : List HostMove), s.resetDone = true → s.moves = .command w :: moves →
    ∃ t r, step s = .next t ∧ t.rsps = r :: s.rsps ∧ t.moves = moves ∧ t.resetDone = true

/-- 60_exceptions.md R201: between commands the core keeps all its state. -/
def Obligations.IdleCoreKeepsItsState : Prop :=
  ∀ s : State, s.resetDone = true → s.moves = [] → step s = .next s

/-- 70_reset_and_hazards.md R212: before the first reset the model refuses every move but a reset. -/
def Obligations.NothingRunsBeforeFirstReset : Prop :=
  ∀ s : State, s.resetDone = false → (∀ moves, s.moves ≠ .reset :: moves) → step s = .refused .beforeFirstReset

/-- 70_reset_and_hazards.md R222, R224, 30_encoding.md R83: at the clock level a word transferred to an idle core is
answered after exactly LAT edges, whatever the other pins do, as long as `rst` stays 0; the registers are those the
command leaves and the response is its response. LAT is opaque (log entry 4); that the registers change at the edge at
which the response rises is the model's reading (log entry 9). -/
def Obligations.TransferredWordIsAnsweredAfterLatency : Prop :=
  ∀ (core : State) (first : Pins) (later : List Pins),
    core.resetDone = true → first.rst = false → first.cmdValid = true → (∀ pins ∈ later, pins.rst = false) →
    later.length = Config.lat first.cmdWord core →
      ∃ t r, executeWord exec first.cmdWord core = .next t ∧ t.rsps = r :: core.rsps ∧
        edges (first :: later) { core, phase := .idle } =
          .next { core := { t with rsps := core.rsps }, phase := .responding r }

/-- 30_encoding.md R83: a response stays as it is until it is taken, and after that the core is ready again. That the
registers stay while the response waits, and that `rsps` records a response when it is transferred, are the model's
(log entry 9, log entry 2), not the rule's. -/
def Obligations.ResponseStableUntilTaken : Prop :=
  ∀ (core : State) (r : Response) (waiting : List Pins) (last : Pins),
    core.resetDone = true → (∀ pins ∈ waiting, pins.rst = false ∧ pins.rspReady = false) → last.rst = false →
    last.rspReady = true →
      edges waiting { core, phase := .responding r } = .next { core, phase := .responding r } ∧
      ∃ t, edges (waiting ++ [last]) { core, phase := .responding r } = .next t ∧
        t.core = { core with rsps := r :: core.rsps } ∧ t.cmdReady = true ∧ t.rspBus = none

/-- 70_reset_and_hazards.md R210, R211, R213: an edge with `rst` 1 gives the clean reset state and an idle core, in any
phase of a command; the command under way is never answered. That `rst` wins over a transfer at the same edge is the
model's reading (log entry 9). -/
def Obligations.ResetEdgeAbandonsCommand : Prop :=
  ∀ (s : PortState) (pins : Pins), pins.rst = true →
    ∃ t, edge pins s = .next t ∧ t.core = { State.reset with moves := s.core.moves, rsps := s.core.rsps } ∧
      t.cmdReady = true ∧ t.rspBus = none

/-! ## Encoding -/

/-- 30_encoding.md R71 to R75: decoding the word of a command gives it back, with every value of its operand. -/
def Obligations.DecodeOfEncodeIsTheCommand : Prop := ∀ i : Instr, decode (encode i) = .ok i

/-- 30_encoding.md R74, R75: a word that decodes to a command is that command's word: no bit of it is dropped. -/
def Obligations.DecodedWordIsTheEncoding : Prop :=
  ∀ (w : CommandWord) (i : Instr), decode w = .ok i → encode i = w

/-- 30_encoding.md R76: the illegal words are those with an unassigned OPC or with an unused field not zero. -/
def Obligations.IllegalWordsAreTheReservedOnes : Prop :=
  ∀ w : CommandWord, (∃ why, decode w = .error why) ↔
    (w.toNat / 2 ^ 88 ∉ [0x00, 0x01, 0x02, 0x10, 0x11, 0x12, 0x20, 0x21, 0x30, 0x31, 0x32, 0x33, 0x34, 0x40, 0x41,
        0x42, 0x43]) ∨
    (w.toNat / 2 ^ 88 ∉ [0x02, 0x30, 0x31, 0x32] ∧ w.toNat / 2 ^ 80 % 256 ≠ 0) ∨
    (w.toNat / 2 ^ 88 ∉ [0x10, 0x11, 0x12] ∧ w.toNat % 2 ^ 80 ≠ 0)

/-- Sample words of spec/95_test_vectors.md decode to the commands they stand for. -/
def Obligations.SampleWordsDecode : Prop :=
  decode 0x000000000000000000000000 = .ok .nop ∧ decode 0x020400000000000000000000 = .ok (.rd 4) ∧
    decode 0x1000FEDCBA98765432100FED = .ok (.lda 0xFEDCBA98765432100FED) ∧
    decode 0x210000000000000000000000 = .ok .modinv ∧ decode 0x314100000000000000000000 = .ok (.pushb 0x41) ∧
    decode 0x430000000000000000000000 = .ok .decblk

/-- 30_encoding.md R80: an assembler rejects an operand outside its field, and accepts SETLEN 11, RDB 200 and RD 9. -/
def Obligations.AssemblerRejectsOversizedOperands : Prop :=
  (∀ n : Nat, expand (.pushb n) = none ↔ 255 < n) ∧ (∀ n : Nat, expand (.setlen n) = none ↔ 255 < n) ∧
    (∀ n : Nat, expand (.rdb n) = none ↔ 255 < n) ∧ (∀ n : Nat, expand (.rd n) = none ↔ 255 < n) ∧
    (∀ n : Nat, expand (.lda n) = none ↔ 2 ^ 80 ≤ n) ∧ (∀ n : Nat, expand (.ldb n) = none ↔ 2 ^ 80 ≤ n) ∧
    (∀ n : Nat, expand (.ldx n) = none ↔ 2 ^ 80 ≤ n) ∧
    expand (.setlen 11) = some [.setlen 11] ∧ expand (.rdb 200) = some [.rdb 200] ∧ expand (.rd 9) = some [.rd 9]

/-- 42_cipher.md R158: a stream of N bytes is cut into `N div 10` full blocks and, if `N mod 10` is not 0, one block of
`N mod 10` bytes, which are the stream in order. -/
def Obligations.StreamIsCutIntoBlocks : Prop :=
  ∀ stream : List Byte,
    (streamBlocks stream).flatten = stream ∧
      (streamBlocks stream).map List.length =
        List.replicate (stream.length / 10) 10 ++ (if stream.length % 10 = 0 then [] else [stream.length % 10])

/-! ## System commands -/

/-- 43_system.md R170: NOP responds and leaves the state as it is, in every state, halted or not. -/
def Obligations.NopOnlyResponds : Prop :=
  encode .nop = 0x000000000000000000000000 ∧
  ∀ s : State, exec .nop s = .next { s with rsps := ⟨.completed, 0⟩ :: s.rsps }

/-- 43_system.md R171: INIT leaves the reset state and responds, in every state, halted or not, and is the only command
that clears ERR. -/
def Obligations.InitStartsNewRun : Prop :=
  encode .init = 0x010000000000000000000000 ∧
  ∀ s : State, exec .init s =
      .next { State.reset with resetDone := s.resetDone, moves := s.moves, rsps := ⟨.completed, 0⟩ :: s.rsps } ∧
    ∀ (i : Instr) (t : State), s.err ≠ none → exec i s = .next t → t.err = none → i = .init

/-- 43_system.md R172, 10_state.md R35: RD returns the register its ARG names, zero-extended (P sign-extended), in
every state, halted or not; a number from 7 up raises BadIndex, and then ERR keeps an earlier fault. -/
def Obligations.RdReturnsTheRegister : Prop :=
  ∀ s : State,
    exec (.rd 0) s = .next { s with rsps := ⟨.completed, s.status⟩ :: s.rsps } ∧
    (∃ d : Data, exec (.rd 1) s = .next { s with rsps := ⟨.completed, d⟩ :: s.rsps } ∧ d.toNat = s.a.toNat) ∧
    (∃ d : Data, exec (.rd 2) s = .next { s with rsps := ⟨.completed, d⟩ :: s.rsps } ∧ d.toNat = s.b.toNat) ∧
    (∃ d : Data, exec (.rd 3) s = .next { s with rsps := ⟨.completed, d⟩ :: s.rsps } ∧ d.toNat = s.inva.toNat) ∧
    (∃ d : Data, exec (.rd 4) s = .next { s with rsps := ⟨.completed, d⟩ :: s.rsps } ∧ d.toNat = s.x.toNat) ∧
    (∃ d : Data, exec (.rd 5) s = .next { s with rsps := ⟨.completed, d⟩ :: s.rsps } ∧ d.toNat = s.g.toNat) ∧
    (∃ d : Data, exec (.rd 6) s = .next { s with rsps := ⟨.completed, d⟩ :: s.rsps } ∧ d.toInt = s.p.toInt) ∧
    ∀ reg : Byte, 7 ≤ reg.toNat →
      ∃ t, exec (.rd reg) s = .next t ∧
        t = { s with err := t.err, rsps := ⟨.raised .badIndex, 0⟩ :: s.rsps } ∧
        (s.err = none → t.err = some .badIndex) ∧ (∀ first, s.err = some first → t.err = some first)

/-- 10_state.md R34: the fields of STATUS. -/
def Obligations.StatusFieldsAreInPlace : Prop :=
  ∀ s : State,
    s.status.extractLsb' 0 8 = s.errByte ∧ s.status.getLsbD 8 = s.av ∧ s.status.getLsbD 9 = s.bv ∧
      s.status.getLsbD 10 = s.invv ∧ s.status.getLsbD 11 = false ∧
      (s.status.extractLsb' 12 4).toNat = s.len.val ∧ s.status.extractLsb' 16 80 = 0

/-! ## Modular inverse engine -/

/-- 40_modular_arithmetic.md R100: GCD writes `gcd(A, M)` to G, or raises KeyNotLoaded and writes nothing but ERR. -/
def Obligations.GcdWritesGreatestCommonDivisor : Prop :=
  encode .gcd = 0x200000000000000000000000 ∧
  ∀ s : State, s.err = none →
    (s.av = true → exec .gcd s =
      .next { s with g := BitVec.ofNat 81 (Nat.gcd s.a.toNat (2 ^ 80)), rsps := ⟨.completed, 0⟩ :: s.rsps }) ∧
    (s.av = false → exec .gcd s =
      .next { s with err := some .keyNotLoaded, rsps := ⟨.raised .keyNotLoaded, 0⟩ :: s.rsps })

/-- 40_modular_arithmetic.md R98: `gcd(a, 2^80)` in closed form, and it is 1 exactly for odd `a`. -/
def Obligations.GcdClosedForm : Prop :=
  gcdOf 0 modulus = 2 ^ 80 ∧
  ∀ a : Nat, a < 2 ^ 80 →
    (a ≠ 0 → ∃ v, v < 80 ∧ 2 ^ v ∣ a ∧ ¬ 2 ^ (v + 1) ∣ a ∧ gcdOf a modulus = 2 ^ v) ∧
    (gcdOf a modulus = 1 ↔ a % 2 = 1)

/-- 40_modular_arithmetic.md R102: MODINV with A odd leaves the centred inverse in P, its reduction in INVA, 1 in G,
sets INVV, and changes nothing else. -/
def Obligations.ModinvOfOddMultiplier : Prop :=
  ∀ s : State, s.err = none → s.av = true → s.a.toNat % 2 = 1 →
    ∃ t, exec .modinv s = .next t ∧
      t = { s with g := 1, p := t.p, inva := t.inva, invv := true, rsps := ⟨.completed, 0⟩ :: s.rsps } ∧
      s.a.toNat * t.inva.toNat % 2 ^ 80 = 1 ∧ -2 ^ 79 < t.p.toInt ∧ t.p.toInt < 2 ^ 79 ∧
      (t.inva.toNat : Int) = t.p.toInt % 2 ^ 80

/-- 40_modular_arithmetic.md R103: MODINV with A even writes the gcd to G, which is then a power of two from 2 to
`2^80`, raises NotInvertible and writes nothing else; where the invariants hold, INVA, P and INVV are 0. -/
def Obligations.ModinvOfEvenMultiplier : Prop :=
  ∀ s : State, s.err = none → s.av = true → s.a.toNat % 2 = 0 →
    ∃ t, exec .modinv s = .next t ∧
      t = { s with g := BitVec.ofNat 81 (Nat.gcd s.a.toNat (2 ^ 80)), err := some .notInvertible,
                   rsps := ⟨.raised .notInvertible, 0⟩ :: s.rsps } ∧
      (∃ k, 1 ≤ k ∧ k ≤ 80 ∧ t.g.toNat = 2 ^ k) ∧ (s.Inv → t.inva = 0 ∧ t.p = 0 ∧ t.invv = false)

/-- 40_modular_arithmetic.md R101, 60_exceptions.md R187: MODINV tests AV before the gcd. -/
def Obligations.ModinvNeedsMultiplier : Prop :=
  ∀ s : State, s.err = none → s.av = false →
    exec .modinv s = .next { s with err := some .keyNotLoaded, rsps := ⟨.raised .keyNotLoaded, 0⟩ :: s.rsps }

/-- 40_modular_arithmetic.md R92, R93: the loop ends with the gcd and a Bézout coefficient for `a`, of magnitude at
most `m / (2 gcd)` for `a` not 0. -/
def Obligations.XgcdGivesBezoutCoefficient : Prop :=
  ∀ a m : Nat, a < m →
    (xgcd a m).1 = Nat.gcd a m ∧ (m : Int) ∣ a * (xgcd a m).2 - (xgcd a m).1 ∧
      (1 ≤ a → 2 * (xgcd a m).1 * (xgcd a m).2.natAbs ≤ m)

/-- 40_modular_arithmetic.md R97, R104: for odd `a` the coefficient is the one inverse of `a` modulo `2^80` in the open
interval, it is negative exactly when bit 79 of its reduction is 1, and the reduction is the one inverse in `[0, M)`. -/
def Obligations.XgcdOfOddIsCentredInverse : Prop :=
  ∀ a : Nat, a < 2 ^ 80 → a % 2 = 1 →
    (-2 ^ 79 < (xgcd a modulus).2 ∧ (xgcd a modulus).2 < 2 ^ 79 ∧ a * (xgcd a modulus).2 % 2 ^ 80 = 1) ∧
    (∀ q : Int, -2 ^ 79 < q → q < 2 ^ 79 → a * q % 2 ^ 80 = 1 → q = (xgcd a modulus).2) ∧
    ((xgcd a modulus).2 < 0 ↔ 2 ^ 79 ≤ normalizeM (xgcd a modulus).2) ∧
    (BitVec.ofNat 80 (normalizeM (xgcd a modulus).2)).toInt = (xgcd a modulus).2 ∧
    ∀ y : Nat, y < 2 ^ 80 → a * y % 2 ^ 80 = 1 → y = normalizeM (xgcd a modulus).2

/-- 40_modular_arithmetic.md R94: normalize is the floored remainder, in `[0, m)` for every integer; by M it is the low
80 bits of the two's complement value. -/
def Obligations.NormalizeIsFlooredRemainder : Prop :=
  ∀ x m : Int, 1 ≤ m →
    0 ≤ normalize x m ∧ normalize x m < m ∧ normalize x m = x - x.fdiv m * m ∧
      (∀ n : Nat, 80 ≤ n → (((BitVec.ofInt n x).toNat % 2 ^ 80 : Nat) : Int) = normalize x modulus)

/-! ## Little-endian converter -/

/-- 41_converter.md R124: SETLEN writes LEN alone, or raises BadLength for an ARG above 10 and writes nothing but ERR. -/
def Obligations.SetlenWritesLength : Prop :=
  (∀ n : Byte, (encode (.setlen n)).toNat = 0x30 * 2 ^ 88 + n.toNat * 2 ^ 80) ∧
  ∀ (n : Byte) (s : State), s.err = none →
    (n.toNat ≤ 10 → ∃ length : Fin 11, length.val = n.toNat ∧
      exec (.setlen n) s = .next { s with len := length, rsps := ⟨.completed, 0⟩ :: s.rsps }) ∧
    (10 < n.toNat →
      exec (.setlen n) s = .next { s with err := some .badLength, rsps := ⟨.raised .badLength, 0⟩ :: s.rsps })

/-- 41_converter.md R125: PUSHB stores its byte at address LEN and nowhere else and adds one to LEN, or raises
BlockOverflow with LEN already 10 and writes nothing but ERR. The store is read back where the buffer is canonical. -/
def Obligations.PushbAppendsByte : Prop :=
  (∀ byte : Byte, (encode (.pushb byte)).toNat = 0x31 * 2 ^ 88 + byte.toNat * 2 ^ 80) ∧
  ∀ (byte : Byte) (s : State), s.err = none →
    (s.len.val < 10 → ∃ t, exec (.pushb byte) s = .next t ∧
      t = { s with buf := t.buf, len := t.len, rsps := ⟨.completed, 0⟩ :: s.rsps } ∧
      t.len.val = s.len.val + 1 ∧ (Memory.wf s.buf = true → Memory.read t.buf s.len.val = byte) ∧
      ∀ addr, addr ≠ s.len.val → Memory.read t.buf addr = Memory.read s.buf addr) ∧
    (s.len.val = 10 →
      exec (.pushb byte) s =
        .next { s with err := some .blockOverflow, rsps := ⟨.raised .blockOverflow, 0⟩ :: s.rsps })

/-- 41_converter.md R127: RDB responds with the byte of a cell below LEN and writes nothing, or raises BadIndex. -/
def Obligations.RdbReturnsByteBelowLength : Prop :=
  (∀ index : Byte, (encode (.rdb index)).toNat = 0x32 * 2 ^ 88 + index.toNat * 2 ^ 80) ∧
  ∀ (index : Byte) (s : State), s.err = none →
    (index.toNat < s.len.val → ∃ d : Data, d.toNat = (Memory.read s.buf index.toNat).toNat ∧
      exec (.rdb index) s = .next { s with rsps := ⟨.completed, d⟩ :: s.rsps }) ∧
    (s.len.val ≤ index.toNat →
      exec (.rdb index) s = .next { s with err := some .badIndex, rsps := ⟨.raised .badIndex, 0⟩ :: s.rsps })

/-- 41_converter.md R128, R121: B2I writes the little-endian base-256 sum of the LEN valid bytes to X alone. -/
def Obligations.B2iWritesBlockInteger : Prop :=
  encode .b2i = 0x330000000000000000000000 ∧
  ∀ s : State, s.err = none → ∃ t, exec .b2i s = .next t ∧
    t = { s with x := t.x, rsps := ⟨.completed, 0⟩ :: s.rsps } ∧
    t.x.toNat = ∑ i ∈ Finset.range s.len.val, (Memory.read s.buf i).toNat * 256 ^ i ∧
    t.x.toNat = blockToInteger ((List.range s.len.val).map (Memory.read s.buf))

/-- 41_converter.md R129, R122: I2B writes all ten cells with the bytes of X, the lowest first, and nothing else. The
stores are read back where the buffer is canonical; addresses outside 0 to 9 read as before in any case. -/
def Obligations.I2bWritesAllTenCells : Prop :=
  encode .i2b = 0x340000000000000000000000 ∧
  ∀ s : State, s.err = none → ∃ t, exec .i2b s = .next t ∧
    t = { s with buf := t.buf, rsps := ⟨.completed, 0⟩ :: s.rsps } ∧
    (Memory.wf s.buf = true → (∀ i, i < 10 → Memory.read t.buf i = s.x.extractLsb' (8 * i) 8) ∧
      (List.range 10).map (Memory.read t.buf) = integerToBlock s.x.toNat) ∧
    ∀ addr, 10 ≤ addr → Memory.read t.buf addr = Memory.read s.buf addr

/-- 41_converter.md R123: the laws (a) to (d) of the two conversions. -/
def Obligations.ConverterLaws : Prop :=
  (∀ v, v < 2 ^ 80 → blockToInteger (integerToBlock v) = v) ∧
  (∀ block : List Byte, block.length = 10 → integerToBlock (blockToInteger block) = block) ∧
  (∀ block : List Byte, block.length < 10 →
    integerToBlock (blockToInteger block) = block ++ List.replicate (10 - block.length) 0) ∧
  (∀ v n, v < 2 ^ 80 → n ≤ 10 →
    (integerToBlock v).take n = (integerToBlock (v % 256 ^ n)).take n ∧
      blockToInteger ((integerToBlock v).take n) = v % 256 ^ n)

/-- 20_memory.md R66: what the cells at and above LEN hold has no effect on what B2I, ENCBLK and DECBLK compute. -/
def Obligations.StaleBytesHaveNoEffect : Prop :=
  ∀ (i : Instr) (s t : State) (other : Memory), i ∈ [Instr.b2i, .encblk, .decblk] →
    (∀ k, k < s.len.val → Memory.read other k = Memory.read s.buf k) → exec i s = .next t →
      ∃ u, exec i { s with buf := other } = .next u ∧ u = { t with buf := u.buf } ∧
        (i ≠ .b2i → t.err = none → Memory.wf s.buf = true → Memory.wf other = true → u.buf = t.buf)

/-- 41_converter.md R126: after LDBLK of `n` bytes LEN is `n`, the cells below hold them in order, the others keep what
they held, nothing else changes but the responses, and the block integer is that of the bytes. -/
def Obligations.LoadBlockFillsBuffer : Prop :=
  ∀ (bytes : List Byte) (s : State), bytes.length ≤ 10 → s.resetDone = true → s.err = none → Memory.wf s.buf = true →
    ∃ commands t, expand (.ldblk (bytes.map BitVec.toNat)) = some commands ∧
      Host.Core.run core commands.length { s with moves := presented commands } = .next t ∧
      t = { s with buf := t.buf, len := t.len, moves := [], rsps := t.rsps } ∧ t.len.val = bytes.length ∧
      (∀ i, (h : i < bytes.length) → Memory.read t.buf i = bytes[i]) ∧
      (∀ addr, bytes.length ≤ addr → Memory.read t.buf addr = Memory.read s.buf addr) ∧
      t.blockInteger = blockToInteger bytes

/-! ## Affine block cipher -/

/-- 42_cipher.md R143: LDA. -/
def Obligations.LdaLoadsMultiplier : Prop :=
  (∀ a : Word, (encode (.lda a)).toNat = 0x10 * 2 ^ 88 + a.toNat) ∧
  ∀ (a : Word) (s : State), s.err = none →
    exec (.lda a) s = .next { s with a := a, av := true, inva := 0, p := 0, invv := false, g := 0,
                                     rsps := ⟨.completed, 0⟩ :: s.rsps }

/-- 42_cipher.md R144: LDB. -/
def Obligations.LdbLoadsAddend : Prop :=
  (∀ b : Word, (encode (.ldb b)).toNat = 0x11 * 2 ^ 88 + b.toNat) ∧
  ∀ (b : Word) (s : State), s.err = none →
    exec (.ldb b) s = .next { s with b := b, bv := true, rsps := ⟨.completed, 0⟩ :: s.rsps }

/-- 42_cipher.md R145: LDX. -/
def Obligations.LdxLoadsBlockInteger : Prop :=
  (∀ v : Word, (encode (.ldx v)).toNat = 0x12 * 2 ^ 88 + v.toNat) ∧
  ∀ (v : Word) (s : State), s.err = none →
    exec (.ldx v) s = .next { s with x := v, rsps := ⟨.completed, 0⟩ :: s.rsps }

/-- 42_cipher.md R146, R154: ENC computes `(A*X + B) mod 2^80` for any loaded A, odd or even, or raises KeyNotLoaded. -/
def Obligations.EncTransformsX : Prop :=
  encode .enc = 0x400000000000000000000000 ∧
  ∀ s : State, s.err = none →
    (s.av = true → s.bv = true → ∃ t, exec .enc s = .next t ∧
      t = { s with x := t.x, rsps := ⟨.completed, 0⟩ :: s.rsps } ∧
      t.x.toNat = (s.a.toNat * s.x.toNat + s.b.toNat) % 2 ^ 80) ∧
    (s.av = false ∨ s.bv = false →
      exec .enc s = .next { s with err := some .keyNotLoaded, rsps := ⟨.raised .keyNotLoaded, 0⟩ :: s.rsps })

/-- 42_cipher.md R147: DEC computes `(((X - B) mod 2^80) * INVA) mod 2^80`; KeyNotLoaded is tested before
InverseNotReady; on a fault nothing is written but ERR. -/
def Obligations.DecTransformsX : Prop :=
  encode .dec = 0x410000000000000000000000 ∧
  ∀ s : State, s.err = none →
    (s.bv = true → s.invv = true → ∃ t, exec .dec s = .next t ∧
      t = { s with x := t.x, rsps := ⟨.completed, 0⟩ :: s.rsps } ∧
      (t.x.toNat : Int) = (((s.x.toNat : Int) - s.b.toNat) % 2 ^ 80 * s.inva.toNat) % 2 ^ 80) ∧
    (s.bv = false →
      exec .dec s = .next { s with err := some .keyNotLoaded, rsps := ⟨.raised .keyNotLoaded, 0⟩ :: s.rsps }) ∧
    (s.bv = true → s.invv = false →
      exec .dec s = .next { s with err := some .inverseNotReady, rsps := ⟨.raised .inverseNotReady, 0⟩ :: s.rsps })

/-- 42_cipher.md R148: ENCBLK transforms the block integer of the valid bytes and writes X and all ten cells, or raises
KeyNotLoaded and writes nothing but ERR. -/
def Obligations.EncblkTransformsBlock : Prop :=
  encode .encblk = 0x420000000000000000000000 ∧
  ∀ s : State, s.err = none →
    (s.av = true → s.bv = true → ∃ t, exec .encblk s = .next t ∧
      t = { s with x := t.x, buf := t.buf, rsps := ⟨.completed, 0⟩ :: s.rsps } ∧
      t.x.toNat = (s.a.toNat * (∑ i ∈ Finset.range s.len.val, (Memory.read s.buf i).toNat * 256 ^ i) + s.b.toNat)
        % 2 ^ 80 ∧
      (Memory.wf s.buf = true → ∀ i, i < 10 → Memory.read t.buf i = t.x.extractLsb' (8 * i) 8) ∧
      ∀ addr, 10 ≤ addr → Memory.read t.buf addr = Memory.read s.buf addr) ∧
    (s.av = false ∨ s.bv = false →
      exec .encblk s = .next { s with err := some .keyNotLoaded, rsps := ⟨.raised .keyNotLoaded, 0⟩ :: s.rsps })

/-- 42_cipher.md R149: DECBLK transforms back the block integer of the valid bytes and writes X and all ten cells;
KeyNotLoaded is tested before InverseNotReady; on a fault nothing is written but ERR. -/
def Obligations.DecblkTransformsBlock : Prop :=
  encode .decblk = 0x430000000000000000000000 ∧
  ∀ s : State, s.err = none →
    (s.bv = true → s.invv = true → ∃ t, exec .decblk s = .next t ∧
      t = { s with x := t.x, buf := t.buf, rsps := ⟨.completed, 0⟩ :: s.rsps } ∧
      (t.x.toNat : Int) =
        (((∑ i ∈ Finset.range s.len.val, ((Memory.read s.buf i).toNat : Int) * 256 ^ i) - s.b.toNat) % 2 ^ 80
          * s.inva.toNat) % 2 ^ 80 ∧
      (Memory.wf s.buf = true → ∀ i, i < 10 → Memory.read t.buf i = t.x.extractLsb' (8 * i) 8) ∧
      ∀ addr, 10 ≤ addr → Memory.read t.buf addr = Memory.read s.buf addr) ∧
    (s.bv = false →
      exec .decblk s = .next { s with err := some .keyNotLoaded, rsps := ⟨.raised .keyNotLoaded, 0⟩ :: s.rsps }) ∧
    (s.bv = true → s.invv = false →
      exec .decblk s =
        .next { s with err := some .inverseNotReady, rsps := ⟨.raised .inverseNotReady, 0⟩ :: s.rsps })

/-- 42_cipher.md R150: when no fault occurs the fused commands leave the architectural state of the three split ones;
with the key not loaded the split form has already overwritten X, the fused one has touched neither X nor BUF. -/
def Obligations.FusedCommandsEqualSplitOnes : Prop :=
  ∀ s : State, s.err = none →
    (s.av = true → s.bv = true → ∃ t t1 t2 t3, exec .encblk s = .next t ∧ exec .b2i s = .next t1 ∧
      exec .enc t1 = .next t2 ∧ exec .i2b t2 = .next t3 ∧ t.SameArchitecture t3) ∧
    (s.bv = true → s.invv = true → ∃ t t1 t2 t3, exec .decblk s = .next t ∧ exec .b2i s = .next t1 ∧
      exec .dec t1 = .next t2 ∧ exec .i2b t2 = .next t3 ∧ t.SameArchitecture t3) ∧
    (s.av = false ∨ s.bv = false → ∃ t t1 t2, exec .encblk s = .next t ∧ exec .b2i s = .next t1 ∧
      exec .enc t1 = .next t2 ∧ t.err ≠ none ∧ t2.err ≠ none ∧ t.x = s.x ∧ t.buf = s.buf ∧
      t2.x.toNat = s.blockInteger)

/-- 42_cipher.md R152: the two transforms undo each other under an inverse of A. -/
def Obligations.TransformsAreInverse : Prop :=
  ∀ a b invA v : Nat, a < 2 ^ 80 → b < 2 ^ 80 → invA < 2 ^ 80 → v < 2 ^ 80 → a * invA % 2 ^ 80 = 1 →
    decBlock (encBlock v a b) b invA = v ∧ encBlock (decBlock v b invA) a b = v

/-- 42_cipher.md R153: in every state that meets the invariants, with the key and its inverse ready, a block of any
length encrypted, kept only in its first LEN bytes and decrypted comes back byte for byte. -/
def Obligations.ShortBlockRoundTrip : Prop :=
  ∀ s : State, s.Inv → s.err = none → s.bv = true → s.invv = true →
    ∃ t, exec .encblk s = .next t ∧ t.len = s.len ∧
      ∀ kept : Memory, (∀ i, i < s.len.val → Memory.read kept i = Memory.read t.buf i) → Memory.wf kept = true →
        ∃ u, exec .decblk { t with buf := kept } = .next u ∧ u.len = s.len ∧
          ∀ i, i < s.len.val → Memory.read u.buf i = Memory.read s.buf i

/-- 42_cipher.md R151: what a transform computes depends on the key registers, X or the valid bytes, and LEN alone. -/
def Obligations.TransformsKeepNoHistory : Prop :=
  ∀ s u : State, s.err = none → u.err = none →
    (s.av = true → s.bv = true → u.av = true → u.bv = true → s.a = u.a → s.b = u.b → s.len = u.len →
      (s.x = u.x → ∃ t w, exec .enc s = .next t ∧ exec .enc u = .next w ∧ t.x = w.x) ∧
      ((∀ k, k < s.len.val → Memory.read s.buf k = Memory.read u.buf k) →
        ∃ t w, exec .encblk s = .next t ∧ exec .encblk u = .next w ∧ t.x = w.x ∧
          (Memory.wf s.buf = true → Memory.wf u.buf = true → t.buf = w.buf))) ∧
    (s.bv = true → s.invv = true → u.bv = true → u.invv = true → s.inva = u.inva → s.b = u.b → s.len = u.len →
      (s.x = u.x → ∃ t w, exec .dec s = .next t ∧ exec .dec u = .next w ∧ t.x = w.x) ∧
      ((∀ k, k < s.len.val → Memory.read s.buf k = Memory.read u.buf k) →
        ∃ t w, exec .decblk s = .next t ∧ exec .decblk u = .next w ∧ t.x = w.x ∧
          (Memory.wf s.buf = true → Memory.wf u.buf = true → t.buf = w.buf)))

/-! ## Frames, faults and whole-machine rules -/

/-- 10_state.md R41: a command that completes writes no field that the table does not mark for it, and leaves the
host's waiting moves alone. -/
def Obligations.CompletedCommandWritesOnlyItsFields : Prop :=
  ∀ (i : Instr) (s t : State) (d : Data), exec i s = .next t → t.rsps = ⟨.completed, d⟩ :: s.rsps →
    (∀ f : Field, writesField i f = false → t.agree s f) ∧ t.moves = s.moves ∧ t.resetDone = s.resetDone

/-- 60_exceptions.md R183: a command that raises a fault answers its code with DATA 0, ERR takes the code if it was 0
and keeps its value otherwise, and no other state is written, except G by MODINV. -/
def Obligations.RaisedFaultWritesOnlyErr : Prop :=
  ∀ (i : Instr) (s t : State) (c : Cause) (d : Data), exec i s = .next t → t.rsps = ⟨.raised c, d⟩ :: s.rsps →
    d = 0 ∧ (s.err = none → t.err = some c) ∧ (∀ first, s.err = some first → t.err = some first) ∧
      t = { s with err := t.err, g := t.g, rsps := t.rsps } ∧ (i ≠ .modinv → t.g = s.g)

/-- 60_exceptions.md R181: which command raises which cause and when, the numbers of the codes (9 to 255 are never
produced), and that ERR holds the code of its cause. -/
def Obligations.CausesAndCodes : Prop :=
  (∀ (i : Instr) (s t : State) (code : Code) (d : Data), exec i s = .next t → t.rsps = ⟨code, d⟩ :: s.rsps →
    match code with
    | .completed => True
    | .halted => s.err ≠ none ∧ i ≠ .nop ∧ i ≠ .init ∧ ∀ reg, i ≠ .rd reg
    | .raised .illegalCommand => False
    | .raised .notInvertible => i = .modinv ∧ Nat.gcd s.a.toNat (2 ^ 80) ≠ 1
    | .raised .keyNotLoaded =>
      ((i = .gcd ∨ i = .modinv ∨ i = .enc ∨ i = .encblk) ∧ s.av = false) ∨
        ((i = .enc ∨ i = .encblk ∨ i = .dec ∨ i = .decblk) ∧ s.bv = false)
    | .raised .blockOverflow => (∃ byte, i = .pushb byte) ∧ s.len.val = 10
    | .raised .badLength => ∃ n : Byte, i = .setlen n ∧ 10 < n.toNat
    | .raised .badIndex =>
      (∃ index : Byte, i = .rdb index ∧ s.len.val ≤ index.toNat) ∨ ∃ reg : Byte, i = .rd reg ∧ 7 ≤ reg.toNat
    | .raised .inverseNotReady => (i = .dec ∨ i = .decblk) ∧ s.invv = false) ∧
  Code.byte .completed = 0 ∧ Code.byte (.raised .illegalCommand) = 1 ∧ Code.byte (.raised .notInvertible) = 2 ∧
    Code.byte (.raised .keyNotLoaded) = 3 ∧ Code.byte (.raised .blockOverflow) = 4 ∧
    Code.byte (.raised .badLength) = 5 ∧ Code.byte (.raised .badIndex) = 6 ∧ Code.byte .halted = 7 ∧
    Code.byte (.raised .inverseNotReady) = 8 ∧
  (∀ code : Code, code.byte.toNat ≤ 8) ∧
  ∀ (s : State) (c : Cause), s.err = some c → s.errByte = (Code.raised c).byte

/-- 30_encoding.md R78, R79: DATA is 0 on every fault and refusal, and for every completed command but RD and RDB. -/
def Obligations.OnlyReadsReturnData : Prop :=
  ∀ (i : Instr) (s t : State) (code : Code) (d : Data), exec i s = .next t → t.rsps = ⟨code, d⟩ :: s.rsps → d ≠ 0 →
    code = .completed ∧
      ((∃ reg, i = .rd reg ∧ registerView reg s = some d) ∨
        ∃ index : Byte, i = .rdb index ∧ index.toNat < s.len.val ∧ d.toNat = (Memory.read s.buf index.toNat).toNat)

/-- 10_state.md R32: once ERR is not 0 a step leaves it alone, unless the move is INIT or a reset, which clears it. -/
def Obligations.ErrClearedOnlyByInitOrReset : Prop :=
  ∀ (s t : State) (first : Cause), s.err = some first → step s = .next t →
    t.err = some first ∨ (t.err = none ∧ ∃ move moves, s.moves = move :: moves ∧ endsRun move = true)

/-- 60_exceptions.md R184, R204: a halted run is dead: over any number of steps with no INIT and no reset the
architectural state does not change, and no response carries anything but a register of that state. -/
def Obligations.HaltedRunIsFrozen : Prop :=
  ∀ (k : Nat) (s t : State), s.err ≠ none → (∀ move ∈ s.moves, endsRun move = false) →
    Host.Core.run core k s = .next t →
      t.SameArchitecture s ∧ ∃ later, t.rsps = later ++ s.rsps ∧
        ∀ r ∈ later, r.data = 0 ∨ (r.code = .completed ∧ ∃ reg, registerView reg s = some r.data)

/-- 10_state.md R21, R22, R23: only LDA, INIT and reset change A; only LDB, INIT and reset change B; only MODINV, LDA,
INIT and reset change INVA. -/
def Obligations.KeyRegistersHaveTheirOwnWriters : Prop :=
  ∀ s t : State, step s = .next t →
    (t.a ≠ s.a → ∃ move moves, s.moves = move :: moves ∧
      (endsRun move = true ∨ ∃ w a, move = .command w ∧ decode w = .ok (.lda a))) ∧
    (t.b ≠ s.b → ∃ move moves, s.moves = move :: moves ∧
      (endsRun move = true ∨ ∃ w b, move = .command w ∧ decode w = .ok (.ldb b))) ∧
    (t.inva ≠ s.inva → ∃ move moves, s.moves = move :: moves ∧
      (endsRun move = true ∨ ∃ w, move = .command w ∧ (decode w = .ok .modinv ∨ ∃ a, decode w = .ok (.lda a))))
end

