-- ==== Sys2Proof/Laws/Arithmetic.lean ====
section
/-! SUPPORT. The source's functions in the terms of the library: powers, the modulus, the remainder, the gcd. -/

namespace Sys2Proof.Machine

theorem power_eq (base : Int) (exp : Nat) : power base exp = base ^ exp := by
  induction exp with
  | zero => simp [power]
  | succ exp ih => rw [power, ih, pow_succ, mul_comm]

/-- `M = 2^80` (00_scope.md R8). -/
@[simp] theorem modulus_eq : modulus = 2 ^ 80 := by
  rw [modulus, power_eq]; rfl

/-- The weight of byte `i` is `256^i` (41_converter.md R121). -/
@[simp] theorem weight_eq (i : Nat) : weight i = 256 ^ i := by
  rw [weight, power_eq]
  have : ((Config.radix : Nat) : Int) ^ i = ((256 ^ i : Nat) : Int) := by simp [Config.radix]
  rw [this, Int.toNat_natCast]

theorem gcdLoop_eq {fuel x y : Nat} (h : y < fuel) : gcdLoop fuel x y = Nat.gcd x y := by
  induction fuel generalizing x y with
  | zero => omega
  | succ fuel ih =>
    simp only [gcdLoop]
    split_ifs with hy
    · rw [hy, Nat.gcd_zero_right]
    · rw [ih ((Nat.mod_lt x (Nat.pos_of_ne_zero hy)).trans_le (by omega)), Nat.gcd_comm x y, Nat.gcd_rec y x,
        Nat.gcd_comm]

/-- `gcd(x, y)` is the greatest common divisor (40_modular_arithmetic.md R91). -/
theorem gcdOf_eq (x y : Nat) : gcdOf x y = Nat.gcd x y := gcdLoop_eq (Nat.lt_succ_self y)

/-- `normalize` by a positive modulus is the library's remainder, in `[0, m)` (40_modular_arithmetic.md R94). -/
theorem normalize_eq_emod {x m : Int} (h : 0 ≤ m) : normalize x m = x % m := Int.fmod_eq_emod_of_nonneg x h

/-- `normalize(x, M)` is a value of `[0, M)`. -/
theorem normalizeM_cast (x : Int) : (normalizeM x : Int) = x % 2 ^ 80 := by
  rw [normalizeM, normalize_eq_emod (by positivity), modulus_eq]
  exact Int.toNat_of_nonneg (Int.emod_nonneg x (by norm_num))

theorem normalizeM_lt (x : Int) : normalizeM x < 2 ^ 80 := by
  have h := normalizeM_cast x
  have := Int.emod_lt_of_pos x (show (0 : Int) < 2 ^ 80 by norm_num)
  omega

/-- The loop of `xgcd` runs out of its second remainder before its fuel: its first result is the gcd. -/
theorem xgcdLoop_fst {fuel r0 r1 : Nat} {t0 t1 : Int} (h : r1 < fuel) : (xgcdLoop fuel r0 r1 t0 t1).1 = Nat.gcd r0 r1 := by
  induction fuel generalizing r0 r1 t0 t1 with
  | zero => omega
  | succ fuel ih =>
    simp only [xgcdLoop]
    split_ifs with hr
    · rw [hr, Nat.gcd_zero_right]
    · have hmod : r0 - r0 / r1 * r1 = r0 % r1 := by rw [Nat.mul_comm]; exact (Nat.mod_eq_sub_mul_div).symm
      rw [ih, hmod, Nat.gcd_comm r0 r1, Nat.gcd_rec r1 r0, Nat.gcd_comm]
      rw [hmod]
      exact (Nat.mod_lt r0 (Nat.pos_of_ne_zero hr)).trans_le (by omega)

/-- `integerToBlock` gives exactly ten bytes (41_converter.md R122). -/
theorem integerDigits_length (n v : Nat) : (integerDigits n v).length = n := by
  induction n generalizing v with
  | zero => rfl
  | succ n ih => simp [integerDigits, ih]

end Sys2Proof.Machine
end

