-- ==== Sys2Proof/Laws/Memory.lean ====
section
/-! SUPPORT. The buffer: reads after writes, the canonical form kept by every memory operation, and equality of
canonical buffers by their bytes. -/

namespace Sys2Proof.Machine

theorem Memory.wfFrom_mono {m : Memory} {low high : Nat} (h : Memory.wfFrom high m = true) (hl : low ≤ high) :
    Memory.wfFrom low m = true := by
  cases m with
  | nil => rfl
  | cons c m =>
    obtain ⟨k, v⟩ := c
    simp only [Memory.wfFrom, Bool.and_eq_true, decide_eq_true_eq] at h ⊢
    exact ⟨⟨⟨hl.trans h.1.1.1, h.1.1.2⟩, h.1.2⟩, h.2⟩

/-- A canonical buffer that starts above an address does not list it. -/
theorem Memory.read_below {m : Memory} {low a : Nat} (h : Memory.wfFrom low m = true) (ha : a < low) :
    Memory.read m a = Memory.unlisted := by
  induction m generalizing low with
  | nil => rfl
  | cons c m ih =>
    obtain ⟨k, v⟩ := c
    simp only [Memory.wfFrom, Bool.and_eq_true, decide_eq_true_eq] at h
    have hk : a ≠ k := by omega
    simp only [Memory.read, if_neg hk]
    exact ih h.2 (by omega)

/-- No address from 10 up is listed (20_memory.md R59). -/
theorem Memory.read_outside {m : Memory} {low a : Nat} (h : Memory.wfFrom low m = true) (ha : 10 ≤ a) :
    Memory.read m a = Memory.unlisted := by
  induction m generalizing low with
  | nil => rfl
  | cons c m ih =>
    obtain ⟨k, v⟩ := c
    simp only [Memory.wfFrom, Bool.and_eq_true, decide_eq_true_eq] at h
    have hk : a ≠ k := by omega
    simp only [Memory.read, if_neg hk]
    exact ih h.2

theorem Memory.wfFrom_erase {m : Memory} {low : Nat} (a : Nat) (h : Memory.wfFrom low m = true) :
    Memory.wfFrom low (Memory.erase m a) = true := by
  induction m generalizing low with
  | nil => rfl
  | cons c m ih =>
    obtain ⟨k, v⟩ := c
    simp only [Memory.wfFrom, Bool.and_eq_true, decide_eq_true_eq] at h
    simp only [Memory.erase]
    split
    · exact Memory.wfFrom_mono h.2 (by omega)
    · simp only [Memory.wfFrom, Bool.and_eq_true, decide_eq_true_eq]
      exact ⟨h.1, ih h.2⟩

theorem Memory.wfFrom_insert {m : Memory} {low a : Nat} {v : Byte} (h : Memory.wfFrom low m = true) (hl : low ≤ a)
    (ha : a < 10) (hv : v ≠ Memory.unlisted) : Memory.wfFrom low (Memory.insert m a v) = true := by
  induction m generalizing low with
  | nil => simp [Memory.insert, Memory.wfFrom, hl, ha, hv]
  | cons c m ih =>
    obtain ⟨k, w⟩ := c
    simp only [Memory.wfFrom, Bool.and_eq_true, decide_eq_true_eq] at h
    simp only [Memory.insert]
    split_ifs with h1 h2
    · simp only [Memory.wfFrom, Bool.and_eq_true, decide_eq_true_eq]
      exact ⟨⟨⟨hl, ha⟩, hv⟩, ⟨⟨by omega, h.1.1.2⟩, h.1.2⟩, h.2⟩
    · simp only [Memory.wfFrom, Bool.and_eq_true, decide_eq_true_eq]
      exact ⟨⟨⟨hl, ha⟩, hv⟩, by rw [h2]; exact h.2⟩
    · simp only [Memory.wfFrom, Bool.and_eq_true, decide_eq_true_eq]
      exact ⟨h.1, ih h.2 (by omega)⟩

/-- Writing a cell that exists keeps the canonical form. -/
theorem Memory.wf_write {m : Memory} {a : Nat} (v : Byte) (h : Memory.wf m = true) (ha : a < 10) :
    Memory.wf (Memory.write m a v) = true := by
  simp only [Memory.wf, Memory.write] at *
  split_ifs with hv
  · exact Memory.wfFrom_erase a h
  · exact Memory.wfFrom_insert h (Nat.zero_le a) ha hv

/-- `MemWrite` inside the buffer keeps the canonical form. -/
theorem wf_memWrite {m : Memory} {addr n : Nat} (v : Nat) (h : Memory.wf m = true) (hn : addr + n ≤ 10) :
    Memory.wf (memWrite m addr n v) = true := by
  induction n with
  | zero => exact h
  | succ n ih => exact Memory.wf_write _ (ih (by omega)) (by omega)

theorem Memory.read_erase_same {m : Memory} {low : Nat} (a : Nat) (h : Memory.wfFrom low m = true) :
    Memory.read (Memory.erase m a) a = Memory.unlisted := by
  induction m generalizing low with
  | nil => rfl
  | cons c m ih =>
    obtain ⟨k, v⟩ := c
    simp only [Memory.wfFrom, Bool.and_eq_true, decide_eq_true_eq] at h
    simp only [Memory.erase]
    split_ifs with hk
    · exact Memory.read_below h.2 (by omega)
    · simp only [Memory.read, if_neg hk]
      exact ih h.2

theorem Memory.read_erase_other {m : Memory} {a b : Nat} (hab : b ≠ a) :
    Memory.read (Memory.erase m a) b = Memory.read m b := by
  induction m with
  | nil => rfl
  | cons c m ih =>
    obtain ⟨k, v⟩ := c
    simp only [Memory.erase]
    split_ifs with hk
    · simp [Memory.read, ← hk, hab]
    · simp only [Memory.read, ih]

theorem Memory.read_insert_same (m : Memory) (a : Nat) (v : Byte) : Memory.read (Memory.insert m a v) a = v := by
  induction m with
  | nil => simp [Memory.insert, Memory.read]
  | cons c m ih =>
    obtain ⟨k, w⟩ := c
    simp only [Memory.insert]
    split_ifs with h1 h2 <;> simp only [Memory.read, if_true]
    rw [if_neg h2, ih]

theorem Memory.read_insert_other {m : Memory} {a b : Nat} {v : Byte} (hab : b ≠ a) :
    Memory.read (Memory.insert m a v) b = Memory.read m b := by
  induction m with
  | nil => simp [Memory.insert, Memory.read, hab]
  | cons c m ih =>
    obtain ⟨k, w⟩ := c
    simp only [Memory.insert]
    split_ifs with h1 h2
    · simp [Memory.read, hab]
    · simp [Memory.read, ← h2, hab]
    · simp only [Memory.read, ih]

/-- A read after a write to the same cell gives the byte written. -/
theorem Memory.read_write_same {m : Memory} (h : Memory.wf m = true) (a : Nat) (v : Byte) :
    Memory.read (Memory.write m a v) a = v := by
  unfold Memory.write
  split_ifs with hv
  · rw [hv]; exact Memory.read_erase_same a h
  · exact Memory.read_insert_same m a v

/-- A write leaves every other cell alone, in any buffer. -/
theorem Memory.read_write_other {m : Memory} {a b : Nat} {v : Byte} (hab : b ≠ a) :
    Memory.read (Memory.write m a v) b = Memory.read m b := by
  unfold Memory.write
  split_ifs with hv
  · exact Memory.read_erase_other hab
  · exact Memory.read_insert_other hab

/-- A cell that `MemWrite` does not store to reads as before. -/
theorem read_memWrite_other {m : Memory} {addr n v b : Nat} (hb : b < addr ∨ addr + n ≤ b) :
    Memory.read (memWrite m addr n v) b = Memory.read m b := by
  induction n with
  | zero => rfl
  | succ n ih =>
    simp only [memWrite]
    rw [Memory.read_write_other (by omega), ih (by omega)]

/-- A cell that `MemWrite` stores to reads as its byte of the value (00_scope.md R15). -/
theorem read_memWrite_inside {m : Memory} {n v i : Nat} (h : Memory.wf m = true) (hn : n ≤ 10) (hi : i < n) :
    Memory.read (memWrite m 0 n v) i = BitVec.ofNat 8 (v / 256 ^ i) := by
  induction n with
  | zero => omega
  | succ n ih =>
    simp only [memWrite, Nat.zero_add, weight_eq]
    by_cases hin : i = n
    · subst hin
      rw [Memory.read_write_same (wf_memWrite v h (by omega))]
      apply BitVec.eq_of_toNat_eq
      simp [Config.radix]
    · rw [Memory.read_write_other hin, ih (by omega) (by omega)]

/-- `MemRead` reads nothing but its own cells (20_memory.md R66). -/
theorem memRead_congr {m m' : Memory} {addr n : Nat}
    (h : ∀ i, i < n → Memory.read m (addr + i) = Memory.read m' (addr + i)) : memRead m addr n = memRead m' addr n := by
  induction n with
  | zero => rfl
  | succ n ih =>
    simp only [memRead]
    rw [ih fun i hi => h i (by omega), h n (by omega)]

/-- The integer of `n` bytes is below `256^n` (41_converter.md R121). -/
theorem memRead_lt (m : Memory) (addr n : Nat) : memRead m addr n < 256 ^ n := by
  induction n with
  | zero => simp [memRead]
  | succ n ih =>
    simp only [memRead, weight_eq]
    have hb := (Memory.read m (addr + n)).isLt
    calc memRead m addr n + (Memory.read m (addr + n)).toNat * 256 ^ n
        < 256 ^ n + (Memory.read m (addr + n)).toNat * 256 ^ n := by omega
      _ = ((Memory.read m (addr + n)).toNat + 1) * 256 ^ n := by ring
      _ ≤ 256 * 256 ^ n := Nat.mul_le_mul_right _ (by omega)
      _ = 256 ^ (n + 1) := by ring

/-- Two canonical buffers with the same bytes are the same buffer. -/
theorem Memory.ext_of_wfFrom {m m' : Memory} {low : Nat} (h : Memory.wfFrom low m = true)
    (h' : Memory.wfFrom low m' = true) (hr : ∀ a, Memory.read m a = Memory.read m' a) : m = m' := by
  induction m generalizing low m' with
  | nil =>
    cases m' with
    | nil => rfl
    | cons c m' =>
      obtain ⟨k, v⟩ := c
      simp only [Memory.wfFrom, Bool.and_eq_true, decide_eq_true_eq] at h'
      exact absurd (by simpa [Memory.read] using (hr k).symm) h'.1.2
  | cons c m ih =>
    obtain ⟨k, v⟩ := c
    simp only [Memory.wfFrom, Bool.and_eq_true, decide_eq_true_eq] at h
    cases m' with
    | nil => exact absurd (by simpa [Memory.read] using hr k) h.1.2
    | cons c' m' =>
      obtain ⟨k', v'⟩ := c'
      simp only [Memory.wfFrom, Bool.and_eq_true, decide_eq_true_eq] at h'
      have hk := hr k
      have hk' := hr k'
      simp only [Memory.read, if_true] at hk hk'
      have hkk : k = k' := by
        by_contra hne
        rcases Nat.lt_or_gt_of_ne hne with hlt | hgt
        · rw [if_neg hne, Memory.read_below h'.2 (by omega)] at hk
          exact h.1.2 hk
        · rw [if_neg (Ne.symm hne), Memory.read_below h.2 (by omega)] at hk'
          exact h'.1.2 hk'.symm
      subst hkk
      rw [if_pos rfl] at hk
      subst hk
      rw [ih h.2 h'.2]
      intro a
      have ha := hr a
      simp only [Memory.read] at ha
      split_ifs at ha with hak
      · rw [Memory.read_below h.2 (by omega), Memory.read_below h'.2 (by omega)]
      · exact ha

end Sys2Proof.Machine
end

