-- ==== Sys2Proof/Laws/State.lean ====
section
/-! SUPPORT. The value of every field after every named update of Machine/Ops.lean, one lemma a pair, true by
unfolding: no later proof unfolds a record update. -/

namespace Sys2Proof.Machine

@[simp] theorem State.putA_a (v : Word) (s : State) : (s.putA v).a = v := rfl
@[simp] theorem State.putA_b (v : Word) (s : State) : (s.putA v).b = s.b := rfl
@[simp] theorem State.putA_inva (v : Word) (s : State) : (s.putA v).inva = s.inva := rfl
@[simp] theorem State.putA_x (v : Word) (s : State) : (s.putA v).x = s.x := rfl
@[simp] theorem State.putA_g (v : Word) (s : State) : (s.putA v).g = s.g := rfl
@[simp] theorem State.putA_p (v : Word) (s : State) : (s.putA v).p = s.p := rfl
@[simp] theorem State.putA_av (v : Word) (s : State) : (s.putA v).av = true := rfl
@[simp] theorem State.putA_bv (v : Word) (s : State) : (s.putA v).bv = s.bv := rfl
@[simp] theorem State.putA_invv (v : Word) (s : State) : (s.putA v).invv = s.invv := rfl
@[simp] theorem State.putA_buf (v : Word) (s : State) : (s.putA v).buf = s.buf := rfl
@[simp] theorem State.putA_len (v : Word) (s : State) : (s.putA v).len = s.len := rfl
@[simp] theorem State.putA_err (v : Word) (s : State) : (s.putA v).err = s.err := rfl
@[simp] theorem State.putA_resetDone (v : Word) (s : State) : (s.putA v).resetDone = s.resetDone := rfl
@[simp] theorem State.putA_moves (v : Word) (s : State) : (s.putA v).moves = s.moves := rfl
@[simp] theorem State.putA_rsps (v : Word) (s : State) : (s.putA v).rsps = s.rsps := rfl

@[simp] theorem State.clearDerived_a (s : State) : s.clearDerived.a = s.a := rfl
@[simp] theorem State.clearDerived_b (s : State) : s.clearDerived.b = s.b := rfl
@[simp] theorem State.clearDerived_inva (s : State) : s.clearDerived.inva = 0 := rfl
@[simp] theorem State.clearDerived_x (s : State) : s.clearDerived.x = s.x := rfl
@[simp] theorem State.clearDerived_g (s : State) : s.clearDerived.g = 0 := rfl
@[simp] theorem State.clearDerived_p (s : State) : s.clearDerived.p = 0 := rfl
@[simp] theorem State.clearDerived_av (s : State) : s.clearDerived.av = s.av := rfl
@[simp] theorem State.clearDerived_bv (s : State) : s.clearDerived.bv = s.bv := rfl
@[simp] theorem State.clearDerived_invv (s : State) : s.clearDerived.invv = false := rfl
@[simp] theorem State.clearDerived_buf (s : State) : s.clearDerived.buf = s.buf := rfl
@[simp] theorem State.clearDerived_len (s : State) : s.clearDerived.len = s.len := rfl
@[simp] theorem State.clearDerived_err (s : State) : s.clearDerived.err = s.err := rfl
@[simp] theorem State.clearDerived_resetDone (s : State) : s.clearDerived.resetDone = s.resetDone := rfl
@[simp] theorem State.clearDerived_moves (s : State) : s.clearDerived.moves = s.moves := rfl
@[simp] theorem State.clearDerived_rsps (s : State) : s.clearDerived.rsps = s.rsps := rfl

@[simp] theorem State.putB_a (v : Word) (s : State) : (s.putB v).a = s.a := rfl
@[simp] theorem State.putB_b (v : Word) (s : State) : (s.putB v).b = v := rfl
@[simp] theorem State.putB_inva (v : Word) (s : State) : (s.putB v).inva = s.inva := rfl
@[simp] theorem State.putB_x (v : Word) (s : State) : (s.putB v).x = s.x := rfl
@[simp] theorem State.putB_g (v : Word) (s : State) : (s.putB v).g = s.g := rfl
@[simp] theorem State.putB_p (v : Word) (s : State) : (s.putB v).p = s.p := rfl
@[simp] theorem State.putB_av (v : Word) (s : State) : (s.putB v).av = s.av := rfl
@[simp] theorem State.putB_bv (v : Word) (s : State) : (s.putB v).bv = true := rfl
@[simp] theorem State.putB_invv (v : Word) (s : State) : (s.putB v).invv = s.invv := rfl
@[simp] theorem State.putB_buf (v : Word) (s : State) : (s.putB v).buf = s.buf := rfl
@[simp] theorem State.putB_len (v : Word) (s : State) : (s.putB v).len = s.len := rfl
@[simp] theorem State.putB_err (v : Word) (s : State) : (s.putB v).err = s.err := rfl
@[simp] theorem State.putB_resetDone (v : Word) (s : State) : (s.putB v).resetDone = s.resetDone := rfl
@[simp] theorem State.putB_moves (v : Word) (s : State) : (s.putB v).moves = s.moves := rfl
@[simp] theorem State.putB_rsps (v : Word) (s : State) : (s.putB v).rsps = s.rsps := rfl

@[simp] theorem State.putX_a (v : Word) (s : State) : (s.putX v).a = s.a := rfl
@[simp] theorem State.putX_b (v : Word) (s : State) : (s.putX v).b = s.b := rfl
@[simp] theorem State.putX_inva (v : Word) (s : State) : (s.putX v).inva = s.inva := rfl
@[simp] theorem State.putX_x (v : Word) (s : State) : (s.putX v).x = v := rfl
@[simp] theorem State.putX_g (v : Word) (s : State) : (s.putX v).g = s.g := rfl
@[simp] theorem State.putX_p (v : Word) (s : State) : (s.putX v).p = s.p := rfl
@[simp] theorem State.putX_av (v : Word) (s : State) : (s.putX v).av = s.av := rfl
@[simp] theorem State.putX_bv (v : Word) (s : State) : (s.putX v).bv = s.bv := rfl
@[simp] theorem State.putX_invv (v : Word) (s : State) : (s.putX v).invv = s.invv := rfl
@[simp] theorem State.putX_buf (v : Word) (s : State) : (s.putX v).buf = s.buf := rfl
@[simp] theorem State.putX_len (v : Word) (s : State) : (s.putX v).len = s.len := rfl
@[simp] theorem State.putX_err (v : Word) (s : State) : (s.putX v).err = s.err := rfl
@[simp] theorem State.putX_resetDone (v : Word) (s : State) : (s.putX v).resetDone = s.resetDone := rfl
@[simp] theorem State.putX_moves (v : Word) (s : State) : (s.putX v).moves = s.moves := rfl
@[simp] theorem State.putX_rsps (v : Word) (s : State) : (s.putX v).rsps = s.rsps := rfl

@[simp] theorem State.putG_a (n : Nat) (s : State) : (s.putG n).a = s.a := rfl
@[simp] theorem State.putG_b (n : Nat) (s : State) : (s.putG n).b = s.b := rfl
@[simp] theorem State.putG_inva (n : Nat) (s : State) : (s.putG n).inva = s.inva := rfl
@[simp] theorem State.putG_x (n : Nat) (s : State) : (s.putG n).x = s.x := rfl
@[simp] theorem State.putG_g (n : Nat) (s : State) : (s.putG n).g = BitVec.ofNat 81 n := rfl
@[simp] theorem State.putG_p (n : Nat) (s : State) : (s.putG n).p = s.p := rfl
@[simp] theorem State.putG_av (n : Nat) (s : State) : (s.putG n).av = s.av := rfl
@[simp] theorem State.putG_bv (n : Nat) (s : State) : (s.putG n).bv = s.bv := rfl
@[simp] theorem State.putG_invv (n : Nat) (s : State) : (s.putG n).invv = s.invv := rfl
@[simp] theorem State.putG_buf (n : Nat) (s : State) : (s.putG n).buf = s.buf := rfl
@[simp] theorem State.putG_len (n : Nat) (s : State) : (s.putG n).len = s.len := rfl
@[simp] theorem State.putG_err (n : Nat) (s : State) : (s.putG n).err = s.err := rfl
@[simp] theorem State.putG_resetDone (n : Nat) (s : State) : (s.putG n).resetDone = s.resetDone := rfl
@[simp] theorem State.putG_moves (n : Nat) (s : State) : (s.putG n).moves = s.moves := rfl
@[simp] theorem State.putG_rsps (n : Nat) (s : State) : (s.putG n).rsps = s.rsps := rfl

@[simp] theorem State.putInverse_a (c : Int) (s : State) : (s.putInverse c).a = s.a := rfl
@[simp] theorem State.putInverse_b (c : Int) (s : State) : (s.putInverse c).b = s.b := rfl
@[simp] theorem State.putInverse_inva (c : Int) (s : State) : (s.putInverse c).inva = BitVec.ofNat 80 (normalizeM c) := rfl
@[simp] theorem State.putInverse_x (c : Int) (s : State) : (s.putInverse c).x = s.x := rfl
@[simp] theorem State.putInverse_g (c : Int) (s : State) : (s.putInverse c).g = s.g := rfl
@[simp] theorem State.putInverse_p (c : Int) (s : State) : (s.putInverse c).p = BitVec.ofInt 82 c := rfl
@[simp] theorem State.putInverse_av (c : Int) (s : State) : (s.putInverse c).av = s.av := rfl
@[simp] theorem State.putInverse_bv (c : Int) (s : State) : (s.putInverse c).bv = s.bv := rfl
@[simp] theorem State.putInverse_invv (c : Int) (s : State) : (s.putInverse c).invv = true := rfl
@[simp] theorem State.putInverse_buf (c : Int) (s : State) : (s.putInverse c).buf = s.buf := rfl
@[simp] theorem State.putInverse_len (c : Int) (s : State) : (s.putInverse c).len = s.len := rfl
@[simp] theorem State.putInverse_err (c : Int) (s : State) : (s.putInverse c).err = s.err := rfl
@[simp] theorem State.putInverse_resetDone (c : Int) (s : State) : (s.putInverse c).resetDone = s.resetDone := rfl
@[simp] theorem State.putInverse_moves (c : Int) (s : State) : (s.putInverse c).moves = s.moves := rfl
@[simp] theorem State.putInverse_rsps (c : Int) (s : State) : (s.putInverse c).rsps = s.rsps := rfl

@[simp] theorem State.putBuf_a (m : Memory) (s : State) : (s.putBuf m).a = s.a := rfl
@[simp] theorem State.putBuf_b (m : Memory) (s : State) : (s.putBuf m).b = s.b := rfl
@[simp] theorem State.putBuf_inva (m : Memory) (s : State) : (s.putBuf m).inva = s.inva := rfl
@[simp] theorem State.putBuf_x (m : Memory) (s : State) : (s.putBuf m).x = s.x := rfl
@[simp] theorem State.putBuf_g (m : Memory) (s : State) : (s.putBuf m).g = s.g := rfl
@[simp] theorem State.putBuf_p (m : Memory) (s : State) : (s.putBuf m).p = s.p := rfl
@[simp] theorem State.putBuf_av (m : Memory) (s : State) : (s.putBuf m).av = s.av := rfl
@[simp] theorem State.putBuf_bv (m : Memory) (s : State) : (s.putBuf m).bv = s.bv := rfl
@[simp] theorem State.putBuf_invv (m : Memory) (s : State) : (s.putBuf m).invv = s.invv := rfl
@[simp] theorem State.putBuf_buf (m : Memory) (s : State) : (s.putBuf m).buf = m := rfl
@[simp] theorem State.putBuf_len (m : Memory) (s : State) : (s.putBuf m).len = s.len := rfl
@[simp] theorem State.putBuf_err (m : Memory) (s : State) : (s.putBuf m).err = s.err := rfl
@[simp] theorem State.putBuf_resetDone (m : Memory) (s : State) : (s.putBuf m).resetDone = s.resetDone := rfl
@[simp] theorem State.putBuf_moves (m : Memory) (s : State) : (s.putBuf m).moves = s.moves := rfl
@[simp] theorem State.putBuf_rsps (m : Memory) (s : State) : (s.putBuf m).rsps = s.rsps := rfl

@[simp] theorem State.putBlock_a (v : Nat) (s : State) : (s.putBlock v).a = s.a := rfl
@[simp] theorem State.putBlock_b (v : Nat) (s : State) : (s.putBlock v).b = s.b := rfl
@[simp] theorem State.putBlock_inva (v : Nat) (s : State) : (s.putBlock v).inva = s.inva := rfl
@[simp] theorem State.putBlock_x (v : Nat) (s : State) : (s.putBlock v).x = BitVec.ofNat 80 v := rfl
@[simp] theorem State.putBlock_g (v : Nat) (s : State) : (s.putBlock v).g = s.g := rfl
@[simp] theorem State.putBlock_p (v : Nat) (s : State) : (s.putBlock v).p = s.p := rfl
@[simp] theorem State.putBlock_av (v : Nat) (s : State) : (s.putBlock v).av = s.av := rfl
@[simp] theorem State.putBlock_bv (v : Nat) (s : State) : (s.putBlock v).bv = s.bv := rfl
@[simp] theorem State.putBlock_invv (v : Nat) (s : State) : (s.putBlock v).invv = s.invv := rfl
@[simp] theorem State.putBlock_buf (v : Nat) (s : State) : (s.putBlock v).buf = memWrite s.buf 0 Config.blockBytes v := rfl
@[simp] theorem State.putBlock_len (v : Nat) (s : State) : (s.putBlock v).len = s.len := rfl
@[simp] theorem State.putBlock_err (v : Nat) (s : State) : (s.putBlock v).err = s.err := rfl
@[simp] theorem State.putBlock_resetDone (v : Nat) (s : State) : (s.putBlock v).resetDone = s.resetDone := rfl
@[simp] theorem State.putBlock_moves (v : Nat) (s : State) : (s.putBlock v).moves = s.moves := rfl
@[simp] theorem State.putBlock_rsps (v : Nat) (s : State) : (s.putBlock v).rsps = s.rsps := rfl

@[simp] theorem State.putLen_a (n : Fin 11) (s : State) : (s.putLen n).a = s.a := rfl
@[simp] theorem State.putLen_b (n : Fin 11) (s : State) : (s.putLen n).b = s.b := rfl
@[simp] theorem State.putLen_inva (n : Fin 11) (s : State) : (s.putLen n).inva = s.inva := rfl
@[simp] theorem State.putLen_x (n : Fin 11) (s : State) : (s.putLen n).x = s.x := rfl
@[simp] theorem State.putLen_g (n : Fin 11) (s : State) : (s.putLen n).g = s.g := rfl
@[simp] theorem State.putLen_p (n : Fin 11) (s : State) : (s.putLen n).p = s.p := rfl
@[simp] theorem State.putLen_av (n : Fin 11) (s : State) : (s.putLen n).av = s.av := rfl
@[simp] theorem State.putLen_bv (n : Fin 11) (s : State) : (s.putLen n).bv = s.bv := rfl
@[simp] theorem State.putLen_invv (n : Fin 11) (s : State) : (s.putLen n).invv = s.invv := rfl
@[simp] theorem State.putLen_buf (n : Fin 11) (s : State) : (s.putLen n).buf = s.buf := rfl
@[simp] theorem State.putLen_len (n : Fin 11) (s : State) : (s.putLen n).len = n := rfl
@[simp] theorem State.putLen_err (n : Fin 11) (s : State) : (s.putLen n).err = s.err := rfl
@[simp] theorem State.putLen_resetDone (n : Fin 11) (s : State) : (s.putLen n).resetDone = s.resetDone := rfl
@[simp] theorem State.putLen_moves (n : Fin 11) (s : State) : (s.putLen n).moves = s.moves := rfl
@[simp] theorem State.putLen_rsps (n : Fin 11) (s : State) : (s.putLen n).rsps = s.rsps := rfl

@[simp] theorem State.recordFault_a (c : Cause) (s : State) : (s.recordFault c).a = s.a := rfl
@[simp] theorem State.recordFault_b (c : Cause) (s : State) : (s.recordFault c).b = s.b := rfl
@[simp] theorem State.recordFault_inva (c : Cause) (s : State) : (s.recordFault c).inva = s.inva := rfl
@[simp] theorem State.recordFault_x (c : Cause) (s : State) : (s.recordFault c).x = s.x := rfl
@[simp] theorem State.recordFault_g (c : Cause) (s : State) : (s.recordFault c).g = s.g := rfl
@[simp] theorem State.recordFault_p (c : Cause) (s : State) : (s.recordFault c).p = s.p := rfl
@[simp] theorem State.recordFault_av (c : Cause) (s : State) : (s.recordFault c).av = s.av := rfl
@[simp] theorem State.recordFault_bv (c : Cause) (s : State) : (s.recordFault c).bv = s.bv := rfl
@[simp] theorem State.recordFault_invv (c : Cause) (s : State) : (s.recordFault c).invv = s.invv := rfl
@[simp] theorem State.recordFault_buf (c : Cause) (s : State) : (s.recordFault c).buf = s.buf := rfl
@[simp] theorem State.recordFault_len (c : Cause) (s : State) : (s.recordFault c).len = s.len := rfl
@[simp] theorem State.recordFault_resetDone (c : Cause) (s : State) : (s.recordFault c).resetDone = s.resetDone := rfl
@[simp] theorem State.recordFault_moves (c : Cause) (s : State) : (s.recordFault c).moves = s.moves := rfl
@[simp] theorem State.recordFault_rsps (c : Cause) (s : State) : (s.recordFault c).rsps = s.rsps := rfl

@[simp] theorem State.respond_a (k : Code) (d : Data) (s : State) : (s.respond k d).a = s.a := rfl
@[simp] theorem State.respond_b (k : Code) (d : Data) (s : State) : (s.respond k d).b = s.b := rfl
@[simp] theorem State.respond_inva (k : Code) (d : Data) (s : State) : (s.respond k d).inva = s.inva := rfl
@[simp] theorem State.respond_x (k : Code) (d : Data) (s : State) : (s.respond k d).x = s.x := rfl
@[simp] theorem State.respond_g (k : Code) (d : Data) (s : State) : (s.respond k d).g = s.g := rfl
@[simp] theorem State.respond_p (k : Code) (d : Data) (s : State) : (s.respond k d).p = s.p := rfl
@[simp] theorem State.respond_av (k : Code) (d : Data) (s : State) : (s.respond k d).av = s.av := rfl
@[simp] theorem State.respond_bv (k : Code) (d : Data) (s : State) : (s.respond k d).bv = s.bv := rfl
@[simp] theorem State.respond_invv (k : Code) (d : Data) (s : State) : (s.respond k d).invv = s.invv := rfl
@[simp] theorem State.respond_buf (k : Code) (d : Data) (s : State) : (s.respond k d).buf = s.buf := rfl
@[simp] theorem State.respond_len (k : Code) (d : Data) (s : State) : (s.respond k d).len = s.len := rfl
@[simp] theorem State.respond_err (k : Code) (d : Data) (s : State) : (s.respond k d).err = s.err := rfl
@[simp] theorem State.respond_resetDone (k : Code) (d : Data) (s : State) : (s.respond k d).resetDone = s.resetDone := rfl
@[simp] theorem State.respond_moves (k : Code) (d : Data) (s : State) : (s.respond k d).moves = s.moves := rfl
@[simp] theorem State.respond_rsps (k : Code) (d : Data) (s : State) : (s.respond k d).rsps = ⟨k, d⟩ :: s.rsps := rfl

@[simp] theorem State.complete_a (s : State) : s.complete.a = s.a := rfl
@[simp] theorem State.complete_b (s : State) : s.complete.b = s.b := rfl
@[simp] theorem State.complete_inva (s : State) : s.complete.inva = s.inva := rfl
@[simp] theorem State.complete_x (s : State) : s.complete.x = s.x := rfl
@[simp] theorem State.complete_g (s : State) : s.complete.g = s.g := rfl
@[simp] theorem State.complete_p (s : State) : s.complete.p = s.p := rfl
@[simp] theorem State.complete_av (s : State) : s.complete.av = s.av := rfl
@[simp] theorem State.complete_bv (s : State) : s.complete.bv = s.bv := rfl
@[simp] theorem State.complete_invv (s : State) : s.complete.invv = s.invv := rfl
@[simp] theorem State.complete_buf (s : State) : s.complete.buf = s.buf := rfl
@[simp] theorem State.complete_len (s : State) : s.complete.len = s.len := rfl
@[simp] theorem State.complete_err (s : State) : s.complete.err = s.err := rfl
@[simp] theorem State.complete_resetDone (s : State) : s.complete.resetDone = s.resetDone := rfl
@[simp] theorem State.complete_moves (s : State) : s.complete.moves = s.moves := rfl
@[simp] theorem State.complete_rsps (s : State) : s.complete.rsps = ⟨.completed, 0⟩ :: s.rsps := rfl

@[simp] theorem raise_a (c : Cause) (s : State) : (raise c s).a = s.a := rfl
@[simp] theorem raise_b (c : Cause) (s : State) : (raise c s).b = s.b := rfl
@[simp] theorem raise_inva (c : Cause) (s : State) : (raise c s).inva = s.inva := rfl
@[simp] theorem raise_x (c : Cause) (s : State) : (raise c s).x = s.x := rfl
@[simp] theorem raise_g (c : Cause) (s : State) : (raise c s).g = s.g := rfl
@[simp] theorem raise_p (c : Cause) (s : State) : (raise c s).p = s.p := rfl
@[simp] theorem raise_av (c : Cause) (s : State) : (raise c s).av = s.av := rfl
@[simp] theorem raise_bv (c : Cause) (s : State) : (raise c s).bv = s.bv := rfl
@[simp] theorem raise_invv (c : Cause) (s : State) : (raise c s).invv = s.invv := rfl
@[simp] theorem raise_buf (c : Cause) (s : State) : (raise c s).buf = s.buf := rfl
@[simp] theorem raise_len (c : Cause) (s : State) : (raise c s).len = s.len := rfl
@[simp] theorem raise_err (c : Cause) (s : State) : (raise c s).err = (s.recordFault c).err := rfl
@[simp] theorem raise_resetDone (c : Cause) (s : State) : (raise c s).resetDone = s.resetDone := rfl
@[simp] theorem raise_moves (c : Cause) (s : State) : (raise c s).moves = s.moves := rfl
@[simp] theorem raise_rsps (c : Cause) (s : State) : (raise c s).rsps = ⟨.raised c, 0⟩ :: s.rsps := rfl

@[simp] theorem refuseHalted_a (s : State) : (refuseHalted s).a = s.a := rfl
@[simp] theorem refuseHalted_b (s : State) : (refuseHalted s).b = s.b := rfl
@[simp] theorem refuseHalted_inva (s : State) : (refuseHalted s).inva = s.inva := rfl
@[simp] theorem refuseHalted_x (s : State) : (refuseHalted s).x = s.x := rfl
@[simp] theorem refuseHalted_g (s : State) : (refuseHalted s).g = s.g := rfl
@[simp] theorem refuseHalted_p (s : State) : (refuseHalted s).p = s.p := rfl
@[simp] theorem refuseHalted_av (s : State) : (refuseHalted s).av = s.av := rfl
@[simp] theorem refuseHalted_bv (s : State) : (refuseHalted s).bv = s.bv := rfl
@[simp] theorem refuseHalted_invv (s : State) : (refuseHalted s).invv = s.invv := rfl
@[simp] theorem refuseHalted_buf (s : State) : (refuseHalted s).buf = s.buf := rfl
@[simp] theorem refuseHalted_len (s : State) : (refuseHalted s).len = s.len := rfl
@[simp] theorem refuseHalted_err (s : State) : (refuseHalted s).err = s.err := rfl
@[simp] theorem refuseHalted_resetDone (s : State) : (refuseHalted s).resetDone = s.resetDone := rfl
@[simp] theorem refuseHalted_moves (s : State) : (refuseHalted s).moves = s.moves := rfl
@[simp] theorem refuseHalted_rsps (s : State) : (refuseHalted s).rsps = ⟨.halted, 0⟩ :: s.rsps := rfl

@[simp] theorem State.startRun_a (s : State) : s.startRun.a = 0 := rfl
@[simp] theorem State.startRun_b (s : State) : s.startRun.b = 0 := rfl
@[simp] theorem State.startRun_inva (s : State) : s.startRun.inva = 0 := rfl
@[simp] theorem State.startRun_x (s : State) : s.startRun.x = 0 := rfl
@[simp] theorem State.startRun_g (s : State) : s.startRun.g = 0 := rfl
@[simp] theorem State.startRun_p (s : State) : s.startRun.p = 0 := rfl
@[simp] theorem State.startRun_av (s : State) : s.startRun.av = false := rfl
@[simp] theorem State.startRun_bv (s : State) : s.startRun.bv = false := rfl
@[simp] theorem State.startRun_invv (s : State) : s.startRun.invv = false := rfl
@[simp] theorem State.startRun_buf (s : State) : s.startRun.buf = [] := rfl
@[simp] theorem State.startRun_len (s : State) : s.startRun.len = 0 := rfl
@[simp] theorem State.startRun_err (s : State) : s.startRun.err = none := rfl
@[simp] theorem State.startRun_resetDone (s : State) : s.startRun.resetDone = s.resetDone := rfl
@[simp] theorem State.startRun_moves (s : State) : s.startRun.moves = s.moves := rfl
@[simp] theorem State.startRun_rsps (s : State) : s.startRun.rsps = s.rsps := rfl

@[simp] theorem State.takeMove_a (l : List HostMove) (s : State) : (s.takeMove l).a = s.a := rfl
@[simp] theorem State.takeMove_b (l : List HostMove) (s : State) : (s.takeMove l).b = s.b := rfl
@[simp] theorem State.takeMove_inva (l : List HostMove) (s : State) : (s.takeMove l).inva = s.inva := rfl
@[simp] theorem State.takeMove_x (l : List HostMove) (s : State) : (s.takeMove l).x = s.x := rfl
@[simp] theorem State.takeMove_g (l : List HostMove) (s : State) : (s.takeMove l).g = s.g := rfl
@[simp] theorem State.takeMove_p (l : List HostMove) (s : State) : (s.takeMove l).p = s.p := rfl
@[simp] theorem State.takeMove_av (l : List HostMove) (s : State) : (s.takeMove l).av = s.av := rfl
@[simp] theorem State.takeMove_bv (l : List HostMove) (s : State) : (s.takeMove l).bv = s.bv := rfl
@[simp] theorem State.takeMove_invv (l : List HostMove) (s : State) : (s.takeMove l).invv = s.invv := rfl
@[simp] theorem State.takeMove_buf (l : List HostMove) (s : State) : (s.takeMove l).buf = s.buf := rfl
@[simp] theorem State.takeMove_len (l : List HostMove) (s : State) : (s.takeMove l).len = s.len := rfl
@[simp] theorem State.takeMove_err (l : List HostMove) (s : State) : (s.takeMove l).err = s.err := rfl
@[simp] theorem State.takeMove_resetDone (l : List HostMove) (s : State) : (s.takeMove l).resetDone = s.resetDone := rfl
@[simp] theorem State.takeMove_moves (l : List HostMove) (s : State) : (s.takeMove l).moves = l := rfl
@[simp] theorem State.takeMove_rsps (l : List HostMove) (s : State) : (s.takeMove l).rsps = s.rsps := rfl

@[simp] theorem State.assertReset_a (s : State) : s.assertReset.a = 0 := rfl
@[simp] theorem State.assertReset_b (s : State) : s.assertReset.b = 0 := rfl
@[simp] theorem State.assertReset_inva (s : State) : s.assertReset.inva = 0 := rfl
@[simp] theorem State.assertReset_x (s : State) : s.assertReset.x = 0 := rfl
@[simp] theorem State.assertReset_g (s : State) : s.assertReset.g = 0 := rfl
@[simp] theorem State.assertReset_p (s : State) : s.assertReset.p = 0 := rfl
@[simp] theorem State.assertReset_av (s : State) : s.assertReset.av = false := rfl
@[simp] theorem State.assertReset_bv (s : State) : s.assertReset.bv = false := rfl
@[simp] theorem State.assertReset_invv (s : State) : s.assertReset.invv = false := rfl
@[simp] theorem State.assertReset_buf (s : State) : s.assertReset.buf = [] := rfl
@[simp] theorem State.assertReset_len (s : State) : s.assertReset.len = 0 := rfl
@[simp] theorem State.assertReset_err (s : State) : s.assertReset.err = none := rfl
@[simp] theorem State.assertReset_resetDone (s : State) : s.assertReset.resetDone = true := rfl
@[simp] theorem State.assertReset_moves (s : State) : s.assertReset.moves = s.moves := rfl
@[simp] theorem State.assertReset_rsps (s : State) : s.assertReset.rsps = s.rsps := rfl

/-- ERR after a fault is recorded, from a running core (60_exceptions.md R183). -/
theorem State.recordFault_err_running {s : State} (h : s.err = none) (c : Cause) : (s.recordFault c).err = some c := by
  simp [State.recordFault, h]

/-- ERR keeps the first fault (60_exceptions.md R183). -/
theorem State.recordFault_err_halted {s : State} {first : Cause} (h : s.err = some first) (c : Cause) :
    (s.recordFault c).err = some first := by
  simp [State.recordFault, h]

end Sys2Proof.Machine
end

