-- ==== Sys2Proof/Laws/Ops.lean ====
section
/-! SUPPORT. One lemma for each shared operation, saying everything it can do: the prologue, the key checks, the
operand checks, raising a fault, the outcome of the Euclid loop, taking the host's next move. -/

namespace Sys2Proof.Machine

/-! ## Faults -/

/-- Raising a fault on a running core (60_exceptions.md R183). -/
theorem raise_running {s : State} (h : s.err = none) (c : Cause) :
    raise c s = { s with err := some c, rsps := ⟨.raised c, 0⟩ :: s.rsps } := by
  simp [raise, State.respond, State.recordFault, h]

/-- Raising a fault on a halted core: RD alone does it (60_exceptions.md R190). -/
theorem raise_halted {s : State} {first : Cause} (h : s.err = some first) (c : Cause) :
    raise c s = { s with rsps := ⟨.raised c, 0⟩ :: s.rsps } := by
  cases s
  simp_all [raise, State.respond, State.recordFault]

/-! ## The prologue -/

/-- On a running core the rule of the command is executed (60_exceptions.md R186). -/
theorem unlessHalted_running {rule : State → State} {s : State} (h : s.err = none) :
    unlessHalted rule s = .next (rule s) := by
  simp [unlessHalted, h]

/-- On a halted core the command is refused (60_exceptions.md R184). -/
theorem unlessHalted_halted {rule : State → State} {s : State} {first : Cause} (h : s.err = some first) :
    unlessHalted rule s = .next (refuseHalted s) := by
  simp [unlessHalted, h]

/-- All the prologue can do. -/
theorem unlessHalted_cases {rule : State → State} {s t : State} (h : unlessHalted rule s = .next t) :
    (s.err = none ∧ t = rule s) ∨ (∃ first, s.err = some first) ∧ t = refuseHalted s := by
  cases he : s.err with
  | none => rw [unlessHalted_running he] at h; cases h; exact .inl ⟨rfl, rfl⟩
  | some first => rw [unlessHalted_halted he] at h; cases h; exact .inr ⟨⟨first, rfl⟩, rfl⟩

theorem evenHalted_eq (rule : State → State) (s : State) : evenHalted rule s = .next (rule s) := rfl

/-! ## Key checks -/

theorem withMultiplier_cases (rule : State → State) (s : State) :
    (s.av = true ∧ withMultiplier rule s = rule s) ∨ (s.av = false ∧ withMultiplier rule s = raise .keyNotLoaded s) := by
  cases h : s.av <;> simp [withMultiplier, State.multiplierLoaded, h]

theorem withEncryptionKey_cases (rule : State → State) (s : State) :
    ((s.av = true ∧ s.bv = true) ∧ withEncryptionKey rule s = rule s) ∨
      ((s.av = false ∨ s.bv = false) ∧ withEncryptionKey rule s = raise .keyNotLoaded s) := by
  cases ha : s.av <;> cases hb : s.bv <;> simp [withEncryptionKey, State.encryptionKeyLoaded, ha, hb]

theorem withDecryptionKey_cases (rule : State → State) (s : State) :
    ((s.bv = true ∧ s.invv = true) ∧ withDecryptionKey rule s = rule s) ∨
      (s.bv = false ∧ withDecryptionKey rule s = raise .keyNotLoaded s) ∨
      ((s.bv = true ∧ s.invv = false) ∧ withDecryptionKey rule s = raise .inverseNotReady s) := by
  cases hb : s.bv <;> cases hi : s.invv <;>
    simp [withDecryptionKey, State.addendLoaded, State.inverseReady, hb, hi]

/-! ## Operand checks -/

theorem blockLength_cases (n : Byte) :
    (∃ h : n.toNat < 11, blockLength n = some ⟨n.toNat, h⟩) ∨ (10 < n.toNat ∧ blockLength n = none) := by
  by_cases h : n.toNat < 11
  · exact .inl ⟨h, by simp [blockLength, h]⟩
  · exact .inr ⟨by omega, by simp [blockLength, h]⟩

theorem pushSlot_cases (s : State) :
    (∃ h : s.len.val + 1 < 11, pushSlot s = some (s.len.val, ⟨s.len.val + 1, h⟩)) ∨
      (s.len.val = 10 ∧ pushSlot s = none) := by
  by_cases h : s.len.val + 1 < 11
  · exact .inl ⟨h, by simp [pushSlot, h]⟩
  · exact .inr ⟨by omega, by simp only [pushSlot, dif_neg h]⟩

theorem bufferIndex_cases (index : Byte) (s : State) :
    (index.toNat < s.len.val ∧ bufferIndex index s = some index.toNat) ∨
      (s.len.val ≤ index.toNat ∧ bufferIndex index s = none) := by
  by_cases h : index.toNat < s.len.val
  · exact .inl ⟨h, if_pos h⟩
  · exact .inr ⟨by omega, if_neg h⟩

/-- The register numbers 0 to 6 name a register, 7 to 255 none (10_state.md R35). -/
theorem registerView_cases (reg : Byte) (s : State) :
    (reg.toNat < 7 ∧ ∃ value, registerView reg s = some value) ∨ (7 ≤ reg.toNat ∧ registerView reg s = none) := by
  unfold registerView
  split
  case h_8 =>
    refine .inr ⟨?_, rfl⟩
    by_contra hlt
    have : reg.toNat = 0 ∨ reg.toNat = 1 ∨ reg.toNat = 2 ∨ reg.toNat = 3 ∨ reg.toNat = 4 ∨ reg.toNat = 5 ∨
        reg.toNat = 6 := by omega
    rcases this with h | h | h | h | h | h | h <;> simp_all [BitVec.toNat_eq]
  all_goals exact .inl ⟨by decide, _, rfl⟩

/-- A register is read from the architectural state alone. -/
theorem registerView_congr {s t : State} (reg : Byte) (ha : s.a = t.a) (hb : s.b = t.b) (hi : s.inva = t.inva)
    (hx : s.x = t.x) (hg : s.g = t.g) (hp : s.p = t.p) (hav : s.av = t.av) (hbv : s.bv = t.bv) (hiv : s.invv = t.invv)
    (hl : s.len = t.len) (he : s.err = t.err) : registerView reg s = registerView reg t := by
  simp only [registerView, State.status, State.errByte, ha, hb, hi, hx, hg, hp, hav, hbv, hiv, hl, he]

/-! ## The engine -/

/-- What MODINV makes of the loop's result (40_modular_arithmetic.md R101 to R103). -/
theorem takeInverse_cases (gp : Nat × Int) (s : State) :
    (gp.1 = 1 ∧ takeInverse gp s = ((s.putG 1).putInverse gp.2).complete) ∨
      (gp.1 ≠ 1 ∧ takeInverse gp s = raise .notInvertible (s.putG gp.1)) := by
  by_cases h : gp.1 = 1
  · exact .inl ⟨h, by simp [takeInverse, h]⟩
  · exact .inr ⟨h, by simp [takeInverse, h]⟩

/-- The gcd MODINV finds is that of A and M. -/
theorem xgcd_fst (a m : Nat) : (xgcd a m).1 = Nat.gcd a m := by
  rw [xgcd, xgcdLoop_fst (Nat.lt_succ_self a), Nat.gcd_comm]

/-! ## The host's next move -/

/-- All that taking the next move can offer (70_reset_and_hazards.md R212, R225). -/
theorem nextMove_cases (s : State) :
    (∃ moves, s.moves = .reset :: moves ∧ nextMove s = .reset (s.takeMove moves)) ∨
    (∃ w moves, s.moves = .command w :: moves ∧ s.resetDone = true ∧ nextMove s = .word w (s.takeMove moves)) ∨
    (s.moves = [] ∧ s.resetDone = true ∧ nextMove s = .idle) ∨
    ((∀ moves, s.moves ≠ .reset :: moves) ∧ s.resetDone = false ∧ nextMove s = .unreset) := by
  unfold nextMove
  cases hm : s.moves with
  | nil => cases hr : s.resetDone <;> simp
  | cons move moves => cases move <;> cases hr : s.resetDone <;> simp

end Sys2Proof.Machine
end

