-- ==== Sys2Proof/Laws/PerInstr.lean ====
section
/-! SUPPORT. The family EncodedFields: of every command, the three fields of its word read back as its OPC, ARG and
IMM (30_encoding.md R71), so that a field its format does not use is zero (R72). -/

namespace Sys2Proof.Laws.EncodedFields

/-- The fields of the word of the command are its OPC, its ARG and its IMM. -/
def Statement (i : Instr) : Prop :=
  opcField (encode i) = opcodeOf i ∧ argField (encode i) = argOf i ∧ immField (encode i) = immOf i

theorem fields_of_append (opc arg : Byte) (imm : Word) :
    opcField (opc ++ arg ++ imm) = opc ∧ argField (opc ++ arg ++ imm) = arg ∧ immField (opc ++ arg ++ imm) = imm := by
  refine ⟨?_, ?_, ?_⟩ <;> apply BitVec.eq_of_getLsbD_eq <;> intro k hk <;>
    simp only [opcField, argField, immField, BitVec.getLsbD_extractLsb', BitVec.getLsbD_append, hk, decide_true,
      Bool.true_and]
  · rw [if_neg (by omega), if_neg (by omega), show 88 + k - 80 - 8 = k by omega]
  · rw [if_neg (by omega), if_pos (by omega), show 80 + k - 80 = k by omega]
  · rw [if_pos (by omega), Nat.zero_add]

theorem nop : Statement .nop := fields_of_append ..
theorem init : Statement .init := fields_of_append ..
theorem rd (reg : Byte) : Statement (.rd reg) := fields_of_append ..
theorem lda (a : Word) : Statement (.lda a) := fields_of_append ..
theorem ldb (b : Word) : Statement (.ldb b) := fields_of_append ..
theorem ldx (v : Word) : Statement (.ldx v) := fields_of_append ..
theorem gcd : Statement .gcd := fields_of_append ..
theorem modinv : Statement .modinv := fields_of_append ..
theorem setlen (n : Byte) : Statement (.setlen n) := fields_of_append ..
theorem pushb (byte : Byte) : Statement (.pushb byte) := fields_of_append ..
theorem rdb (index : Byte) : Statement (.rdb index) := fields_of_append ..
theorem b2i : Statement .b2i := fields_of_append ..
theorem i2b : Statement .i2b := fields_of_append ..
theorem enc : Statement .enc := fields_of_append ..
theorem dec : Statement .dec := fields_of_append ..
theorem encblk : Statement .encblk := fields_of_append ..
theorem decblk : Statement .decblk := fields_of_append ..

end Sys2Proof.Laws.EncodedFields
end

