-- ==== Sys2Proof/Laws/Procedures.lean ====
section
/-! SUPPORT. What a run of the host's reference procedures can be, said once (42_cipher.md R158, R160). -/

namespace Sys2Proof.Machine

/-- A report is success exactly when every response has code 0. -/
theorem statusOf_eq_success (rs : List Response) : statusOf rs = .success ↔ ∀ r ∈ rs, r.code = .completed := by
  induction rs with
  | nil => simp [statusOf]
  | cons r rs ih =>
    rcases r with ⟨code, data⟩
    cases code with
    | completed => simpa [statusOf] using ih
    | raised cause => cases cause <;> simp [statusOf]
    | halted => simp [statusOf]

/-- All a run can be: the opening failed, nothing more was issued and nothing written; or it succeeded and the blocks
followed. -/
theorem hostRun_cases {plan : RunPlan} {s : State} {e : RunEnd} (h : hostRun plan s = .next e) :
    ∃ t, issue plan.opening s = .next t ∧
      ((statusOf (lastResponses plan.opening.length t) ≠ .success ∧
          e = ⟨t, [], statusOf (lastResponses plan.opening.length t)⟩) ∨
        (statusOf (lastResponses plan.opening.length t) = .success ∧ ∃ u, issue plan.blocks t = .next u ∧
          e = ⟨u, bytesOut plan.blocks (lastResponses plan.blocks.length u),
            statusOf (lastResponses plan.blocks.length u)⟩)) := by
  unfold hostRun at h
  split at h
  · cases h
  · cases h
  · rename_i t ht
    refine ⟨t, ht, ?_⟩
    split at h
    · rename_i hs
      split at h
      · cases h
      · cases h
      · rename_i u hu
        cases h
        exact .inr ⟨hs, u, hu, rfl⟩
    · rename_i hs
      cases h
      exact .inl ⟨hs, rfl⟩

end Sys2Proof.Machine
end

