-- ==== Sys2Proof/Laws/Step.lean ====
section
/-! SUPPORT. What a command and a step can do, said once: the inversion of exec into refused, faulted and completed
(with the frame of 10_state.md R41), and of step into its moves. -/

namespace Sys2Proof.Machine

/-- The command ends in `t` having completed with DATA `d`: only the fields of 10_state.md R41 may differ. -/
def CompletedIn (i : Instr) (s t : State) (d : Data) : Prop :=
  t.rsps = ⟨.completed, d⟩ :: s.rsps ∧ t.moves = s.moves ∧ t.resetDone = s.resetDone ∧
    ∀ f, writesField i f = false → t.agree s f

/-- What the rule of a command can leave: a fault raised; NotInvertible raised by MODINV with G written; completion. -/
def RuleAnswers (i : Instr) (s t : State) : Prop :=
  (∃ c, t = raise c s) ∨
  (i = .modinv ∧ s.av = true ∧ Nat.gcd s.a.toNat (2 ^ 80) ≠ 1 ∧
    t = raise .notInvertible (s.putG (Nat.gcd s.a.toNat (2 ^ 80)))) ∨
  ∃ d, CompletedIn i s t d

/-- A completion by fields that R41 marks. -/
theorem RuleAnswers.of_frame {i : Instr} {s t : State} (d : Data) (hr : t.rsps = ⟨.completed, d⟩ :: s.rsps)
    (hm : t.moves = s.moves) (hd : t.resetDone = s.resetDone) (hf : ∀ f, writesField i f = false → t.agree s f) :
    RuleAnswers i s t := .inr (.inr ⟨d, hr, hm, hd, hf⟩)

theorem RuleAnswers.withMultiplier {i : Instr} {s : State} {rule : State → State}
    (h : s.av = true → RuleAnswers i s (rule s)) : RuleAnswers i s (withMultiplier rule s) := by
  rcases withMultiplier_cases rule s with ⟨ha, e⟩ | ⟨-, e⟩ <;> rw [e]
  · exact h ha
  · exact .inl ⟨_, rfl⟩

theorem RuleAnswers.withEncryptionKey {i : Instr} {s : State} {rule : State → State} (h : RuleAnswers i s (rule s)) :
    RuleAnswers i s (withEncryptionKey rule s) := by
  rcases withEncryptionKey_cases rule s with ⟨-, e⟩ | ⟨-, e⟩ <;> rw [e]
  · exact h
  · exact .inl ⟨_, rfl⟩

theorem RuleAnswers.withDecryptionKey {i : Instr} {s : State} {rule : State → State} (h : RuleAnswers i s (rule s)) :
    RuleAnswers i s (withDecryptionKey rule s) := by
  rcases withDecryptionKey_cases rule s with ⟨-, e⟩ | ⟨-, e⟩ | ⟨-, e⟩ <;> rw [e]
  · exact h
  · exact .inl ⟨_, rfl⟩
  · exact .inl ⟨_, rfl⟩

/-- All a command can do (60_exceptions.md R186): a halted core refuses it, or its rule is executed. -/
def ExecAnswers (i : Instr) (s t : State) : Prop :=
  (runsWhileHalted i = false ∧ (∃ first, s.err = some first) ∧ t = refuseHalted s) ∨
    ((runsWhileHalted i = true ∨ s.err = none) ∧ RuleAnswers i s t)

theorem unlessHalted_answers {i : Instr} {s : State} {rule : State → State} (hi : runsWhileHalted i = false)
    (h : RuleAnswers i s (rule s)) : ∃ t, unlessHalted rule s = .next t ∧ ExecAnswers i s t := by
  cases he : s.err with
  | none => exact ⟨_, unlessHalted_running he, .inr ⟨.inr he, h⟩⟩
  | some first => exact ⟨_, unlessHalted_halted he, .inl ⟨hi, ⟨_, he⟩, rfl⟩⟩

theorem evenHalted_answers {i : Instr} {s : State} {rule : State → State} (hi : runsWhileHalted i = true)
    (h : RuleAnswers i s (rule s)) : ∃ t, evenHalted rule s = .next t ∧ ExecAnswers i s t :=
  ⟨_, rfl, .inr ⟨.inl hi, h⟩⟩

/-- Every command in every state answers a next state, of one of these forms. -/
theorem exec_answers (i : Instr) (s : State) : ∃ t, exec i s = .next t ∧ ExecAnswers i s t := by
  cases i with
  | nop =>
    simp only [exec, execNop]
    refine evenHalted_answers (i := .nop) rfl ?_
    exact .of_frame 0 rfl rfl rfl (fun f _ => by cases f <;> rfl)
  | init =>
    simp only [exec, execInit]
    refine evenHalted_answers (i := .init) rfl ?_
    exact .of_frame 0 rfl rfl rfl (fun f hf => by cases f <;> first | rfl | exact absurd hf (by simp [writesField]))
  | rd reg =>
    simp only [exec, execRd]
    refine evenHalted_answers (i := .rd reg) rfl ?_
    rcases registerView_cases reg s with ⟨-, value, h⟩ | ⟨-, h⟩ <;> simp only [h]
    · exact .of_frame value rfl rfl rfl (fun f _ => by cases f <;> rfl)
    · exact .inl ⟨_, rfl⟩
  | lda a =>
    simp only [exec, execLda]
    refine unlessHalted_answers (i := (.lda a)) rfl ?_
    exact .of_frame 0 rfl rfl rfl (fun f hf => by cases f <;> first | rfl | exact absurd hf (by simp [writesField]))
  | ldb b =>
    simp only [exec, execLdb]
    refine unlessHalted_answers (i := (.ldb b)) rfl ?_
    exact .of_frame 0 rfl rfl rfl (fun f hf => by cases f <;> first | rfl | exact absurd hf (by simp [writesField]))
  | ldx v =>
    simp only [exec, execLdx]
    refine unlessHalted_answers (i := (.ldx v)) rfl ?_
    exact .of_frame 0 rfl rfl rfl (fun f hf => by cases f <;> first | rfl | exact absurd hf (by simp [writesField]))
  | gcd =>
    simp only [exec, execGcd]
    refine unlessHalted_answers (i := .gcd) rfl ?_
    exact .withMultiplier fun _ => .of_frame 0 rfl rfl rfl (fun f hf => by cases f <;> first | rfl | exact absurd hf (by simp [writesField]))
  | modinv =>
    simp only [exec, execModinv]
    refine unlessHalted_answers (i := .modinv) rfl (.withMultiplier fun ha => ?_)
    have hg := xgcd_fst s.a.toNat (2 ^ 80)
    rw [modulus_eq]
    rcases takeInverse_cases (xgcd s.a.toNat (2 ^ 80)) s with ⟨-, e⟩ | ⟨h1, e⟩ <;> rw [e]
    · exact .of_frame 0 rfl rfl rfl (fun f hf => by cases f <;> first | rfl | exact absurd hf (by simp [writesField]))
    · rw [hg] at h1 ⊢
      exact .inr (.inl ⟨rfl, ha, h1, rfl⟩)
  | setlen n =>
    simp only [exec, execSetlen]
    refine unlessHalted_answers (i := .setlen n) rfl ?_
    rcases blockLength_cases n with ⟨_, h⟩ | ⟨-, h⟩ <;> simp only [h]
    · exact .of_frame 0 rfl rfl rfl (fun f hf => by cases f <;> first | rfl | exact absurd hf (by simp [writesField]))
    · exact .inl ⟨_, rfl⟩
  | pushb byte =>
    simp only [exec, execPushb]
    refine unlessHalted_answers (i := .pushb byte) rfl ?_
    rcases pushSlot_cases s with ⟨_, h⟩ | ⟨-, h⟩ <;> simp only [h]
    · exact .of_frame 0 rfl rfl rfl (fun f hf => by cases f <;> first | rfl | exact absurd hf (by simp [writesField]))
    · exact .inl ⟨_, rfl⟩
  | rdb index =>
    simp only [exec, execRdb]
    refine unlessHalted_answers (i := .rdb index) rfl ?_
    rcases bufferIndex_cases index s with ⟨-, h⟩ | ⟨-, h⟩ <;> simp only [h]
    · exact .of_frame _ rfl rfl rfl (fun f _ => by cases f <;> rfl)
    · exact .inl ⟨_, rfl⟩
  | b2i =>
    simp only [exec, execB2i]
    refine unlessHalted_answers (i := .b2i) rfl ?_
    exact .of_frame 0 rfl rfl rfl (fun f hf => by cases f <;> first | rfl | exact absurd hf (by simp [writesField]))
  | i2b =>
    simp only [exec, execI2b]
    refine unlessHalted_answers (i := .i2b) rfl ?_
    exact .of_frame 0 rfl rfl rfl (fun f hf => by cases f <;> first | rfl | exact absurd hf (by simp [writesField]))
  | enc =>
    simp only [exec, execEnc]
    refine unlessHalted_answers (i := .enc) rfl ?_
    exact .withEncryptionKey (.of_frame 0 rfl rfl rfl (fun f hf => by cases f <;> first | rfl | exact absurd hf (by simp [writesField])))
  | encblk =>
    simp only [exec, execEncblk]
    refine unlessHalted_answers (i := .encblk) rfl ?_
    exact .withEncryptionKey (.of_frame 0 rfl rfl rfl (fun f hf => by cases f <;> first | rfl | exact absurd hf (by simp [writesField])))
  | dec =>
    simp only [exec, execDec]
    refine unlessHalted_answers (i := .dec) rfl ?_
    exact .withDecryptionKey (.of_frame 0 rfl rfl rfl (fun f hf => by cases f <;> first | rfl | exact absurd hf (by simp [writesField])))
  | decblk =>
    simp only [exec, execDecblk]
    refine unlessHalted_answers (i := .decblk) rfl ?_
    exact .withDecryptionKey (.of_frame 0 rfl rfl rfl (fun f hf => by cases f <;> first | rfl | exact absurd hf (by simp [writesField])))

/-- The inversion of exec: cite this instead of unfolding it. -/
theorem exec_cases {i : Instr} {s t : State} (h : exec i s = .next t) : ExecAnswers i s t := by
  obtain ⟨u, hu, hc⟩ := exec_answers i s
  rw [h] at hu
  cases hu
  exact hc

/-- The outcome of an illegal word (60_exceptions.md R185, R186). -/
theorem executeIllegal_cases (s : State) :
    (s.err = none ∧ executeIllegal s = .next (raise .illegalCommand s)) ∨
      ((∃ first, s.err = some first) ∧ executeIllegal s = .next (refuseHalted s)) := by
  cases he : s.err with
  | none => exact .inl ⟨rfl, unlessHalted_running he⟩
  | some first => exact .inr ⟨⟨first, rfl⟩, unlessHalted_halted he⟩

/-- The inversion of step: a reset; a command executed by exec; an illegal word; idle. -/
theorem step_cases {s t : State} (h : step s = .next t) :
    (∃ moves, s.moves = .reset :: moves ∧ t = (s.takeMove moves).assertReset) ∨
    (∃ w moves i, s.moves = .command w :: moves ∧ s.resetDone = true ∧ decode w = .ok i ∧
      exec i (s.takeMove moves) = .next t) ∨
    (∃ w moves why, s.moves = .command w :: moves ∧ s.resetDone = true ∧ decode w = .error why ∧
      executeIllegal (s.takeMove moves) = .next t) ∨
    (s.moves = [] ∧ s.resetDone = true ∧ t = s) := by
  unfold step at h
  rcases nextMove_cases s with ⟨moves, hm, hn⟩ | ⟨w, moves, hm, hr, hn⟩ | ⟨hm, hr, hn⟩ | ⟨-, -, hn⟩ <;> rw [hn] at h
  · cases h; exact .inl ⟨moves, hm, rfl⟩
  · simp only [executeWord] at h
    cases hd : decode w with
    | ok i => rw [hd] at h; exact .inr (.inl ⟨w, moves, i, hm, hr, hd, h⟩)
    | error why => rw [hd] at h; exact .inr (.inr (.inl ⟨w, moves, why, hm, hr, hd, h⟩))
  · cases h; exact .inr (.inr (.inr ⟨hm, hr, rfl⟩))
  · cases h

/-- An invariant that a step keeps holds after any number of steps. -/
theorem run_induction {P : State → Prop} (hstep : ∀ s t, P s → step s = .next t → P t) :
    ∀ {k : Nat} {s t : State}, P s → Host.Core.run core k s = .next t → P t
  | 0, _, _, hs, h => by cases h; exact hs
  | k + 1, s, t, hs, h => by
    simp only [Host.Core.run] at h
    cases hc : step s with
    | next u => simp only [core, hc] at h; exact run_induction hstep (hstep s u hs hc) h
    | fault f => simp only [core, hc] at h; cases h
    | refused r => simp only [core, hc] at h; cases h

end Sys2Proof.Machine
end

