-- ==== Sys2Proof/Tests/Slice0.lean ====
section
/-! SUPPORT. The model's own tests. Expected values come from spec/95_test_vectors.md (V1 to V7, S2) or from the worked
examples of the rules, named in each comment; then one witness for every statement that has hypotheses. -/

namespace Sys2Proof.Tests

open Sys2Proof.Machine

/-- The state of a next outcome. -/
def next? : Host.Outcome State Fault Refusal → Option State
  | .next t => some t
  | .fault _ => none
  | .refused _ => none

/-- The newest response: CODE as a byte, DATA. -/
def answer? (o : Host.Outcome State Fault Refusal) : Option (Byte × Data) :=
  (next? o).bind fun t => t.rsps.head?.map fun r => (r.code.byte, r.data)

/-- One field of the state after a command. -/
def field? {α : Type} (f : State → α) (o : Host.Outcome State Fault Refusal) : Option α := (next? o).map f

/-- A buffer's ten bytes. -/
def bytesOf (s : State) : List Byte := (List.range 10).map (Memory.read s.buf)

/-- Scenario B's key loaded: a = 5, b = 7. -/
def keyed : State := { State.reset with a := 5, av := true, b := 7, bv := true }

/-- Scenario B's key with its inverse (spec/95_test_vectors.md S1). -/
def ready : State :=
  { keyed with inva := 0xCCCCCCCCCCCCCCCCCCCD, p := BitVec.ofInt 82 (-241785163922925834941235), g := 1, invv := true }

/-- A halted run: NotInvertible (spec/95_test_vectors.md P4). -/
def dead : State :=
  { State.reset with av := true, b := 7, bv := true, g := 0x100000000000000000000, err := some .notInvertible }

/-! ## The well-formedness check: an ill-formed term for each check, at its boundary (30_encoding.md R80, R81) -/

theorem test_wellFormed_refuses_rd :
    SourceLine.wellFormed (.rd 256) = false ∧ SourceLine.wellFormed (.rd 255) = true := by decide
theorem test_wellFormed_refuses_lda :
    SourceLine.wellFormed (.lda (2 ^ 80)) = false ∧ SourceLine.wellFormed (.lda (2 ^ 80 - 1)) = true := by decide
theorem test_wellFormed_refuses_ldb :
    SourceLine.wellFormed (.ldb (2 ^ 80)) = false ∧ SourceLine.wellFormed (.ldb (2 ^ 80 - 1)) = true := by decide
theorem test_wellFormed_refuses_ldx :
    SourceLine.wellFormed (.ldx (2 ^ 80)) = false ∧ SourceLine.wellFormed (.ldx (2 ^ 80 - 1)) = true := by decide
theorem test_wellFormed_refuses_setlen :
    SourceLine.wellFormed (.setlen 256) = false ∧ SourceLine.wellFormed (.setlen 11) = true := by decide
theorem test_wellFormed_refuses_pushb :
    SourceLine.wellFormed (.pushb 256) = false ∧ SourceLine.wellFormed (.pushb 255) = true := by decide
theorem test_wellFormed_refuses_rdb :
    SourceLine.wellFormed (.rdb 256) = false ∧ SourceLine.wellFormed (.rdb 200) = true := by decide
theorem test_wellFormed_refuses_ldblk_length :
    SourceLine.wellFormed (.ldblk [0, 1, 2, 3, 4, 5, 6, 7, 8, 9, 10]) = false ∧ SourceLine.wellFormed (.ldblk [0, 1, 2, 3, 4, 5, 6, 7, 8, 9]) = true := by decide
theorem test_wellFormed_refuses_ldblk_byte :
    SourceLine.wellFormed (.ldblk [256]) = false ∧ SourceLine.wellFormed (.ldblk [255]) = true := by decide
theorem test_wellFormed_refuses_ldkey_a :
    SourceLine.wellFormed (.ldkey (2 ^ 80) 0) = false ∧ SourceLine.wellFormed (.ldkey 0 0) = true := by decide
theorem test_wellFormed_refuses_ldkey_b :
    SourceLine.wellFormed (.ldkey 0 (2 ^ 80)) = false ∧ SourceLine.wellFormed (.ldkey 0 0) = true := by decide
theorem test_wellFormed_refuses_rdblk :
    SourceLine.wellFormed (.rdblk 11) = false ∧ SourceLine.wellFormed (.rdblk 10) = true := by decide

/-! ## Decoding: each command's word written out from 30_encoding.md R71, R74 (OPC, ARG, IMM in hexadecimal) -/

theorem test_decode_nop :
    decode 0x00_00_00000000000000000000 = .ok (.nop) ∧
      encode (.nop) = 0x00_00_00000000000000000000 := ⟨by rfl, by decide⟩
theorem test_decode_init :
    decode 0x01_00_00000000000000000000 = .ok (.init) ∧
      encode (.init) = 0x01_00_00000000000000000000 := ⟨by rfl, by decide⟩
theorem test_decode_rd :
    decode 0x02_04_00000000000000000000 = .ok (.rd 4) ∧
      encode (.rd 4) = 0x02_04_00000000000000000000 := ⟨by rfl, by decide⟩
theorem test_decode_lda :
    decode 0x10_00_0123456789ABCDEF0123 = .ok (.lda 0x0123456789ABCDEF0123) ∧
      encode (.lda 0x0123456789ABCDEF0123) = 0x10_00_0123456789ABCDEF0123 := ⟨by rfl, by decide⟩
theorem test_decode_ldb :
    decode 0x11_00_FEDCBA98765432100FED = .ok (.ldb 0xFEDCBA98765432100FED) ∧
      encode (.ldb 0xFEDCBA98765432100FED) = 0x11_00_FEDCBA98765432100FED := ⟨by rfl, by decide⟩
theorem test_decode_ldx :
    decode 0x12_00_0000000000000000000C = .ok (.ldx 12) ∧
      encode (.ldx 12) = 0x12_00_0000000000000000000C := ⟨by rfl, by decide⟩
theorem test_decode_gcd :
    decode 0x20_00_00000000000000000000 = .ok (.gcd) ∧
      encode (.gcd) = 0x20_00_00000000000000000000 := ⟨by rfl, by decide⟩
theorem test_decode_modinv :
    decode 0x21_00_00000000000000000000 = .ok (.modinv) ∧
      encode (.modinv) = 0x21_00_00000000000000000000 := ⟨by rfl, by decide⟩
theorem test_decode_setlen :
    decode 0x30_03_00000000000000000000 = .ok (.setlen 3) ∧
      encode (.setlen 3) = 0x30_03_00000000000000000000 := ⟨by rfl, by decide⟩
theorem test_decode_pushb :
    decode 0x31_41_00000000000000000000 = .ok (.pushb 0x41) ∧
      encode (.pushb 0x41) = 0x31_41_00000000000000000000 := ⟨by rfl, by decide⟩
theorem test_decode_rdb :
    decode 0x32_09_00000000000000000000 = .ok (.rdb 9) ∧
      encode (.rdb 9) = 0x32_09_00000000000000000000 := ⟨by rfl, by decide⟩
theorem test_decode_b2i :
    decode 0x33_00_00000000000000000000 = .ok (.b2i) ∧
      encode (.b2i) = 0x33_00_00000000000000000000 := ⟨by rfl, by decide⟩
theorem test_decode_i2b :
    decode 0x34_00_00000000000000000000 = .ok (.i2b) ∧
      encode (.i2b) = 0x34_00_00000000000000000000 := ⟨by rfl, by decide⟩
theorem test_decode_enc :
    decode 0x40_00_00000000000000000000 = .ok (.enc) ∧
      encode (.enc) = 0x40_00_00000000000000000000 := ⟨by rfl, by decide⟩
theorem test_decode_dec :
    decode 0x41_00_00000000000000000000 = .ok (.dec) ∧
      encode (.dec) = 0x41_00_00000000000000000000 := ⟨by rfl, by decide⟩
theorem test_decode_encblk :
    decode 0x42_00_00000000000000000000 = .ok (.encblk) ∧
      encode (.encblk) = 0x42_00_00000000000000000000 := ⟨by rfl, by decide⟩
theorem test_decode_decblk :
    decode 0x43_00_00000000000000000000 = .ok (.decblk) ∧
      encode (.decblk) = 0x43_00_00000000000000000000 := ⟨by rfl, by decide⟩

/-- LDA's word bit by bit: OPC 0001 0000, ARG 0000 0000, IMM with bits 79, 8, 2 and 0 set. -/
theorem test_decode_lda_bits :
    decode 0b00010000_00000000_10000000_00000000_00000000_00000000_00000000_00000000_00000000_00000000_00000001_00000101 =
      .ok (.lda 0x80000000000000000105) := by rfl

/-- The illegal words of spec/95_test_vectors.md V6, with the reasons of its table. -/
theorem test_illegal_words :
    decode 0x440000000000000000000000 = .error .unassignedOpcode ∧
      decode 0x030000000000000000000000 = .error .unassignedOpcode ∧
      decode 0xFF0000000000000000000000 = .error .unassignedOpcode ∧
      decode 0xFFFFFFFFFFFFFFFFFFFFFFFF = .error .unassignedOpcode ∧
      decode 0x000100000000000000000000 = .error .argNotZero ∧
      decode 0x200000000000000000000001 = .error .immNotZero ∧
      decode 0x100100000000000000000005 = .error .argNotZero ∧
      decode 0x314100000000000000000001 = .error .immNotZero ∧
      decode 0x020000000000000000000001 = .error .immNotZero := by
  exact ⟨by rfl, by rfl, by rfl, by rfl, by rfl, by rfl, by rfl, by rfl, by rfl⟩

/-! ## The functions (spec/95_test_vectors.md V2, V3, V4) -/

/-- V2: the trace for a = 7 ends with g = 1 and this coefficient. -/
theorem test_xgcd_seven : xgcd 7 modulus = (1, -345407377032751192773193) := by decide

/-- 40_modular_arithmetic.md R92: the corner cases. -/
theorem test_xgcd_corners : xgcd 0 modulus = (modulus, 0) ∧ xgcd 1 modulus = (1, 1) := by decide

/-- V3: -7, -M, M + 3 and -(M + 3). -/
theorem test_normalize :
    normalizeM (-7) = 0xFFFFFFFFFFFFFFFFFFF9 ∧ normalizeM (-2 ^ 80) = 0 ∧ normalizeM (2 ^ 80 + 3) = 3 ∧
      normalizeM (-(2 ^ 80 + 3)) = 2 ^ 80 - 3 := by decide

/-- V4: both directions of the converter. -/
theorem test_converter :
    blockToInteger [1, 2, 3, 4, 5, 6, 7, 8, 9, 10] = 0xA090807060504030201 ∧
      integerToBlock 0x1234 = [0x34, 0x12, 0, 0, 0, 0, 0, 0, 0, 0] := by decide

/-! ## Commands, one step each -/

/-- V7: NOP. -/
theorem test_nop : answer? (execNop dead) = some (0, 0) ∧ field? State.err (execNop dead) = some (some .notInvertible) := by
  decide

/-- P4: INIT after a NotInvertible fault clears ERR and the key. -/
theorem test_init : answer? (execInit dead) = some (0, 0) ∧ field? State.status (execInit dead) = some 0 := by decide

/-- P2 and V7: RD P sign-extends; RD STATUS with LEN = 10 and all three flags. -/
theorem test_rd :
    answer? (execRd 6 ready) = some (0, 0xFFFFCCCCCCCCCCCCCCCCCCCD) ∧
      answer? (execRd 0 { ready with len := 10 }) = some (0, 0xA700) := by decide

/-- V6: RD 9 while halted answers 6 and ERR keeps the first fault; P4: RD G shows bit 80. -/
theorem test_rd_halted :
    answer? (execRd 9 dead) = some (6, 0) ∧ field? State.errByte (execRd 9 dead) = some 2 ∧
      answer? (execRd 5 dead) = some (0, 0x100000000000000000000) := by decide

/-- V7: LDA discards the inverse. -/
theorem test_lda :
    field? (fun t => (t.a, t.inva, t.g)) (execLda 7 ready) = some (7, 0, 0) ∧
      field? (fun t => (t.p, t.av, t.invv)) (execLda 7 ready) = some (0, true, false) := by decide

/-- R144: LDB keeps the inverse. -/
theorem test_ldb : field? (fun t => (t.b, t.bv, t.invv)) (execLdb 9 ready) = some (9, true, true) := by decide

/-- R145: the largest operand. -/
theorem test_ldx : field? State.x (execLdx 0xFFFFFFFFFFFFFFFFFFFF keyed) = some 0xFFFFFFFFFFFFFFFFFFFF := by decide

/-- V1: gcd(0, M) = M needs bit 80; gcd(3 * 2^40, M) = 2^40. -/
theorem test_gcd :
    field? State.g (execGcd { keyed with a := 0 }) = some 0x100000000000000000000 ∧
      field? State.g (execGcd { keyed with a := 0x30000000000 }) = some 0x10000000000 := by decide

/-- V1: GCD from reset. -/
theorem test_gcd_not_loaded :
    answer? (execGcd State.reset) = some (3, 0) ∧ field? State.errByte (execGcd State.reset) = some 3 := by decide

/-- V2: the inverse of 0x123456789ABCDEF0123. -/
theorem test_modinv :
    field? (fun t => (t.inva, t.p.toInt, t.g)) (execModinv { keyed with a := 0x123456789ABCDEF0123 }) =
      some (0xE87029304ADD535F368B, -111267792298147131214197, 1) := by decide

/-- V2: A = 6 answers 2 and leaves G = 2, nothing in INVA and P. -/
theorem test_modinv_even :
    answer? (execModinv { keyed with a := 6 }) = some (2, 0) ∧
      field? (fun t => (t.g, t.inva, t.invv)) (execModinv { keyed with a := 6 }) = some (2, 0, false) := by decide

/-- V4: SETLEN 10 and SETLEN 11. -/
theorem test_setlen :
    field? State.len (execSetlen 10 keyed) = some 10 ∧ answer? (execSetlen 11 keyed) = some (5, 0) := by decide

/-- R125: pushing after SETLEN 4 overwrites BUF[4] and makes LEN 5. -/
theorem test_pushb :
    field? (fun t => (t.buf, t.len)) (execPushb 9 { keyed with len := 4, buf := [(3, 1), (4, 2), (5, 3)] }) =
      some ([(3, 1), (4, 9), (5, 3)], 5) := by decide

/-- V4: the eleventh byte. -/
theorem test_pushb_overflow : answer? (execPushb 0 { keyed with len := 10 }) = some (4, 0) := by decide

/-- R127's example: LEN = 3, BUF = [0x0C, 0, ...]. -/
theorem test_rdb :
    answer? (execRdb 0 { keyed with len := 3, buf := [(0, 0x0C)] }) = some (0, 0x0C) ∧
      answer? (execRdb 3 { keyed with len := 3, buf := [(0, 0x0C)] }) = some (6, 0) := by decide

/-- V4: stale bytes above LEN are ignored. -/
theorem test_b2i : field? State.x (execB2i { keyed with len := 2, buf := [(0, 1), (1, 2), (9, 0xFF)] }) = some 0x201 := by
  decide

/-- V4: the bytes of 0x80000000000000000000, over older ones. -/
theorem test_i2b :
    field? State.buf (execI2b { keyed with x := 0x80000000000000000000, buf := [(0, 7), (5, 9)] }) = some [(9, 0x80)] := by
  decide

/-- V5: even A wraps and raises nothing; 5(M-1)+7 = 5M+2. -/
theorem test_enc :
    field? State.x (execEnc { keyed with a := 2, b := 1, x := 0x80000000000000000000 }) = some 1 ∧
      field? State.x (execEnc { keyed with x := 0xFFFFFFFFFFFFFFFFFFFF }) = some 2 := by decide

/-- V6: the addend is missing. -/
theorem test_enc_no_addend : answer? (execEnc { keyed with bv := false }) = some (3, 0) := by decide

/-- V5: the borrow row, s = M - 7. -/
theorem test_dec : field? State.x (execDec { ready with x := 0 }) = some 0x66666666666666666665 := by decide

/-- V6: BV is tested before INVV. -/
theorem test_dec_checks :
    answer? (execDec State.reset) = some (3, 0) ∧ answer? (execDec keyed) = some (8, 0) := by decide

/-- P3, block 2: a three-byte block. -/
theorem test_encblk :
    field? (fun t => (t.x, bytesOf t, t.len))
        (execEncblk { keyed with a := 0x0123456789ABCDEF0123, b := 0xFEDCBA98765432100FED, len := 3,
                                 buf := [(0, 0x6A), (1, 0x75), (2, 0x6D)] }) =
      some (0x23456789AB592E72876B, [0x6B, 0x87, 0x72, 0x2E, 0x59, 0xAB, 0x89, 0x67, 0x45, 0x23], 3) := by decide

/-- V6: refused while halted. -/
theorem test_encblk_halted :
    answer? (execEncblk dead) = some (7, 0) ∧ field? State.errByte (execEncblk dead) = some 2 := by decide

/-- P3, block 2 back: the three bytes kept are right. -/
theorem test_decblk :
    field? (fun t => (t.x, bytesOf t))
        (execDecblk { ready with inva := 0xE87029304ADD535F368B, b := 0xFEDCBA98765432100FED, len := 3,
                                 buf := [(0, 0x6B), (1, 0x87), (2, 0x72)] }) =
      some (0xD38C881914E0066D756A, [0x6A, 0x75, 0x6D, 0x06, 0xE0, 0x14, 0x19, 0x88, 0x8C, 0xD3]) := by decide

/-- V6: no MODINV since the key was loaded. -/
theorem test_decblk_not_ready : answer? (execDecblk keyed) = some (8, 0) := by decide

/-! ## The step, the ports, the assembler -/

/-- The word of `LDX 12` is fetched and executed as the first command after reset. -/
theorem test_step_first_word :
    field? (fun t => (t.x, t.moves)) (step (State.reset.withFetchWord 96 0x12000000000000000000000C)) = some (12, []) := by
  decide

/-- V6: an illegal word from reset. -/
theorem test_step_illegal :
    answer? (step (State.reset.withFetchWord 96 0x440000000000000000000000)) = some (1, 0) := by decide

/-- A reset move in a halted run, one more word waiting: the reset state, no response. -/
theorem test_step_reset :
    next? (step { dead with moves := [.reset, .command 0] }) = some { State.reset with moves := [.command 0] } := by decide

/-- The op-code table's words are read by number; the pins of an idle core (30_encoding.md R83). -/
theorem test_table_word_and_idle_pins :
    decodeTableWord 96 0x314100000000000000000000 = some (.pushb 0x41) ∧
      PortState.cmdReady { core := keyed, phase := .idle } = true ∧
      PortState.rspBus { core := keyed, phase := .responding ⟨.raised .badIndex, 0⟩ } = some (6, 0) := by decide

/-- R81: LDBLK and LDKEY, from text with a comment, and RD by a register's name. -/
theorem test_assembler :
    parseLine ['L', 'D', 'B', 'L', 'K', ' ', '0', 'x', '3', '4', ',', ' ', '1', '8', ' ', ';', 'x'] =
        some (some (.ldblk [0x34, 18])) ∧
      expand (.ldblk [0x34, 18]) = some [.setlen 0, .pushb 0x34, .pushb 18] ∧
      expand (.ldkey 5 7) = some [.lda 5, .ldb 7] ∧
      parseLine ['R', 'D', ' ', 'I', 'N', 'V', 'A'] = some (some (.rdName .inva)) ∧
      literal ['0', 'x', 'f', '_', 'A', '9'] = some 0xFA9 ∧ literal ['1', 'A'] = none ∧
      expand (.rdName .inva) = some [.rd 3] := by decide

/-- Scenario C: 23 bytes are cut into blocks of 10, 10 and 3 (spec/95_test_vectors.md S3). -/
theorem test_blocks : (streamBlocks (List.replicate 23 0x41)).map List.length = [10, 10, 3] := by decide

/-- Scenario E: the decryption host stops at NotInvertible, no block command issued, no byte written, G = M for a = 0. -/
theorem test_decryption_stops_at_even_multiplier :
    ∃ e, decryptRun 0 7 [0x0C] State.reset = .next e ∧ e.status = .notInvertible ∧ e.output = [] ∧
      e.core.rsps.length = 4 ∧ e.core.g = 0x100000000000000000000 := ⟨_, rfl, by decide, by decide, by decide, by decide⟩

/-- R161: an empty stream, no block command and no output, success. -/
theorem test_empty_stream_succeeds :
    ∃ e, decryptRun 5 7 [] State.reset = .next e ∧ e.status = .success ∧ e.output = [] ∧
      e.core.inva = 0xCCCCCCCCCCCCCCCCCCCD := ⟨_, rfl, by decide, by decide, by decide⟩

/-! ## Witnesses: states and operands that meet the hypotheses of the statements -/

/-- The invariants hold in the reset state with any waiting moves. -/
theorem reset_meets_invariants (moves : List HostMove) : State.Inv { State.reset with moves := moves } := by
  exact ⟨Nat.zero_le 10, fun h => (nomatch h), fun _ => ⟨rfl, rfl⟩, fun _ => ⟨rfl, rfl, rfl⟩, fun _ => rfl,
    ⟨.inl rfl, fun h => absurd rfl h⟩, List.mem_cons_self, rfl⟩

/-- The invariants hold with a key, its inverse and a three-byte block. -/
theorem ready_meets_invariants :
    State.Inv { ready with len := 3, buf := [(0, 0x6A), (1, 0x75), (2, 0x6D)], moves := [.command 0] } := by
  refine ⟨by decide, fun _ => ?_, fun h => (nomatch h), fun h => (nomatch h), fun h => (nomatch h), ?_, by decide, by decide⟩
  · exact ⟨rfl, by decide, rfl, by decide, by decide, by decide, by decide⟩
  · exact ⟨.inr ⟨0, by decide, by decide⟩, fun _ => ⟨rfl, by decide⟩⟩

theorem witness_ResetAndInitZeroEverything :
    (∃ t, (∃ moves, ({ dead with moves := [.reset] } : State).moves = .reset :: moves) ∧
      step { dead with moves := [.reset] } = .next t) ∧ ∃ t, exec .init dead = .next t :=
  ⟨⟨_, ⟨[], rfl⟩, rfl⟩, ⟨_, rfl⟩⟩

theorem witness_ResetMoveGivesResetState :
    ({ dead with resetDone := false, moves := [.reset, .reset] } : State).moves = .reset :: [.reset] := rfl

theorem witness_StepKeepsInvariants :
    ∃ s t : State, s.Inv ∧ s.invv = true ∧ step s = .next t := ⟨_, _, ready_meets_invariants, rfl, rfl⟩

theorem witness_ReachableStatesMeetInvariants :
    ∃ t, Host.Core.run core 2 { State.reset with moves := [.command 0x100000000000000000000005, .reset] } = .next t :=
  ⟨_, rfl⟩

theorem witness_StepKeepsBufferCanonical :
    ∃ t, Memory.wf [(0, 1), (9, 2)] = true ∧
      step { keyed with buf := [(0, 1), (9, 2)], len := 9, moves := [.command 0x310000000000000000000000] } = .next t ∧
      t.buf = [(0, 1)] := ⟨_, by decide, rfl, by decide⟩

theorem witness_StepRunsDecodedCommand :
    ({ keyed with moves := [.command 0x330000000000000000000000] } : State).resetDone = true ∧
      decode 0x330000000000000000000000 = .ok .b2i := ⟨rfl, by rfl⟩

theorem witness_IllegalWordRaisesIllegalCommand :
    ({ keyed with moves := [.command 0x440000000000000000000000] } : State).resetDone = true ∧ keyed.err = none ∧
      decode 0x440000000000000000000000 = .error .unassignedOpcode := ⟨rfl, rfl, by rfl⟩

theorem witness_HaltedCoreRefuses :
    dead.err = some .notInvertible ∧ (Instr.enc ≠ .nop ∧ Instr.enc ≠ .init ∧ ∀ reg, Instr.enc ≠ .rd reg) ∧
      dead.resetDone = true ∧ decode 0x020000000000000000000001 = .error .immNotZero ∧
      registerView 0 dead = some 0x302 ∧ registerView 6 dead = some 0 ∧ registerView 7 dead = none :=
  ⟨rfl, ⟨by decide, by decide, fun _ h => (nomatch h)⟩, rfl, by rfl, by decide, by decide, by decide⟩

theorem witness_InitStartsNewRun : ∃ t, dead.err ≠ none ∧ exec .init dead = .next t ∧ t.err = none :=
  ⟨_, by decide, rfl, rfl⟩

theorem witness_EveryWordGetsOneResponse :
    ({ dead with moves := [.command 0xFFFFFFFFFFFFFFFFFFFFFFFF] } : State).resetDone = true ∧
      ({ dead with moves := [.command 0xFFFFFFFFFFFFFFFFFFFFFFFF] } : State).moves =
        .command 0xFFFFFFFFFFFFFFFFFFFFFFFF :: [] := ⟨rfl, rfl⟩

theorem witness_IdleCoreKeepsItsState : keyed.resetDone = true ∧ keyed.moves = [] := ⟨rfl, rfl⟩

theorem witness_NothingRunsBeforeFirstReset :
    ({ keyed with resetDone := false, moves := [.command 0] } : State).resetDone = false ∧
      ∀ moves, ({ keyed with resetDone := false, moves := [.command 0] } : State).moves ≠ .reset :: moves :=
  ⟨rfl, fun _ h => (nomatch h)⟩

/-- Pins that present a word, pins that wait, pins that take a response. -/
def presenting : Pins := ⟨false, true, 0x200000000000000000000000, false⟩
def waitingPins : Pins := ⟨false, false, 0, false⟩
def taking : Pins := ⟨false, false, 0, true⟩

theorem witness_TransferredWordIsAnsweredAfterLatency :
    keyed.resetDone = true ∧ presenting.rst = false ∧ presenting.cmdValid = true ∧
      (∀ pins ∈ List.replicate (Config.lat presenting.cmdWord keyed) waitingPins, pins.rst = false) ∧
      (List.replicate (Config.lat presenting.cmdWord keyed) waitingPins).length = Config.lat presenting.cmdWord keyed :=
  ⟨rfl, rfl, rfl, fun _ h => (List.eq_of_mem_replicate h) ▸ rfl, List.length_replicate⟩

theorem witness_ResponseStableUntilTaken :
    keyed.resetDone = true ∧ (∀ pins ∈ [waitingPins], pins.rst = false ∧ pins.rspReady = false) ∧
      taking.rst = false ∧ taking.rspReady = true := ⟨rfl, by decide, rfl, rfl⟩

theorem witness_ResetEdgeAbandonsCommand : ({ waitingPins with rst := true } : Pins).rst = true := rfl

theorem witness_DecodedWordIsTheEncoding : decode 0x32FF00000000000000000000 = .ok (.rdb 255) := by rfl

theorem witness_RdReturnsTheRegister :
    7 ≤ (7 : Byte).toNat ∧ 7 ≤ (255 : Byte).toNat ∧ keyed.err = none ∧ dead.err = some .notInvertible :=
  ⟨by decide, by decide, rfl, rfl⟩

theorem witness_GcdWritesGreatestCommonDivisor :
    (keyed.err = none ∧ keyed.av = true) ∧ State.reset.err = none ∧ State.reset.av = false := ⟨⟨rfl, rfl⟩, rfl, rfl⟩

theorem witness_GcdClosedForm : 0 < 2 ^ 80 ∧ 2 ^ 79 < 2 ^ 80 ∧ 2 ^ 79 ≠ 0 := by decide

theorem witness_ModinvOfOddMultiplier :
    keyed.err = none ∧ keyed.av = true ∧ (0xFFFFFFFFFFFFFFFFFFFF : Word).toNat % 2 = 1 ∧ (1 : Word).toNat % 2 = 1 := by
  decide

theorem witness_ModinvOfEvenMultiplier :
    ∃ s : State, s.err = none ∧ s.av = true ∧ s.a.toNat % 2 = 0 ∧ s.Inv := by
  refine ⟨{ State.reset with a := 0x80000000000000000000, av := true }, rfl, rfl, by decide, ?_⟩
  exact ⟨by decide, fun h => (nomatch h), fun _ => ⟨rfl, rfl⟩, fun h => (nomatch h), fun _ => rfl,
    ⟨.inl rfl, fun h => absurd rfl h⟩, by decide, rfl⟩

theorem witness_ModinvNeedsMultiplier : State.reset.err = none ∧ State.reset.av = false := ⟨rfl, rfl⟩

theorem witness_XgcdGivesBezoutCoefficient : 0 < 1 ∧ 1 < 2 ∧ 1 ≤ 1 := by decide

theorem witness_XgcdOfOddIsCentredInverse :
    (2 ^ 80 - 1 < 2 ^ 80 ∧ (2 ^ 80 - 1) % 2 = 1) ∧
      ((-2 ^ 79 : Int) < -1 ∧ (-1 : Int) < 2 ^ 79 ∧ ((2 ^ 80 - 1 : Nat) : Int) * -1 % 2 ^ 80 = 1) ∧
      2 ^ 80 - 1 < 2 ^ 80 ∧ (2 ^ 80 - 1) * (2 ^ 80 - 1) % 2 ^ 80 = 1 := by decide

theorem witness_NormalizeIsFlooredRemainder : (1 : Int) ≤ 1 ∧ 80 ≤ 80 := by decide

theorem witness_SetlenWritesLength :
    keyed.err = none ∧ (10 : Byte).toNat ≤ 10 ∧ 10 < (11 : Byte).toNat ∧ 10 < (255 : Byte).toNat := by decide

theorem witness_PushbAppendsByte :
    keyed.err = none ∧ ({ keyed with len := 9 } : State).len.val < 10 ∧ Memory.wf keyed.buf = true ∧
      ({ keyed with len := 10 } : State).len.val = 10 ∧ 8 ≠ ({ keyed with len := 9 } : State).len.val := by decide

theorem witness_RdbReturnsByteBelowLength :
    keyed.err = none ∧ (9 : Byte).toNat < ({ keyed with len := 10 } : State).len.val ∧
      keyed.len.val ≤ (0 : Byte).toNat ∧ ({ keyed with len := 10 } : State).len.val ≤ (10 : Byte).toNat := by decide

theorem witness_B2iWritesBlockInteger : keyed.err = none := rfl

theorem witness_I2bWritesAllTenCells : keyed.err = none ∧ Memory.wf keyed.buf = true ∧ 9 < 10 ∧ 10 ≤ 10 := by decide

theorem witness_ConverterLaws :
    2 ^ 80 - 1 < 2 ^ 80 ∧ (List.replicate 10 (0xFF : Byte)).length = 10 ∧ (List.replicate 9 (0xFF : Byte)).length < 10 ∧
      ([] : List Byte).length < 10 ∧ 10 ≤ 10 ∧ 0 ≤ 10 := by decide

theorem witness_StaleBytesHaveNoEffect :
    ∃ s t : State, ∃ other : Memory, Instr.encblk ∈ [Instr.b2i, .encblk, .decblk] ∧
      (∀ k, k < s.len.val → Memory.read other k = Memory.read s.buf k) ∧ exec .encblk s = .next t ∧
      Instr.encblk ≠ .b2i ∧ t.err = none ∧ Memory.wf s.buf = true ∧ Memory.wf other = true ∧ other ≠ s.buf :=
  ⟨{ keyed with len := 2, buf := [(0, 1), (1, 2)] }, _, [(0, 1), (1, 2), (9, 0xFF)], by decide, by decide, rfl, by decide,
    rfl, by decide, by decide, by decide⟩

theorem witness_LoadBlockFillsBuffer :
    ([] : List Byte).length ≤ 10 ∧ (List.replicate 10 (0xFF : Byte)).length ≤ 10 ∧ keyed.resetDone = true ∧
      keyed.err = none ∧ Memory.wf keyed.buf = true := by decide

theorem witness_LdaLdbLdx : State.reset.err = none ∧ ready.err = none := ⟨rfl, rfl⟩

theorem witness_EncTransformsX :
    (keyed.err = none ∧ keyed.av = true ∧ keyed.bv = true) ∧
      ({ keyed with av := false } : State).av = false ∧ ({ keyed with bv := false } : State).bv = false := by decide

theorem witness_DecTransformsX :
    (ready.err = none ∧ ready.bv = true ∧ ready.invv = true) ∧ State.reset.bv = false ∧
      keyed.bv = true ∧ keyed.invv = false := by decide

theorem witness_EncblkTransformsBlock :
    keyed.err = none ∧ keyed.av = true ∧ keyed.bv = true ∧ Memory.wf keyed.buf = true ∧
      State.reset.err = none ∧ (State.reset.av = false ∨ State.reset.bv = false) := by decide

theorem witness_DecblkTransformsBlock :
    (ready.err = none ∧ ready.bv = true ∧ ready.invv = true ∧ Memory.wf ready.buf = true) ∧
      (State.reset.err = none ∧ State.reset.bv = false) ∧ keyed.err = none ∧ keyed.bv = true ∧ keyed.invv = false := by
  decide

theorem witness_FusedCommandsEqualSplitOnes :
    ready.err = none ∧ ready.av = true ∧ ready.bv = true ∧ ready.invv = true ∧
      ({ ready with bv := false } : State).bv = false := by decide

theorem witness_TransformsAreInverse :
    5 < 2 ^ 80 ∧ 2 ^ 80 - 1 < 2 ^ 80 ∧ 0xCCCCCCCCCCCCCCCCCCCD < 2 ^ 80 ∧ 5 * 0xCCCCCCCCCCCCCCCCCCCD % 2 ^ 80 = 1 := by
  decide

theorem witness_ShortBlockRoundTrip :
    ∃ s t : State, ∃ kept : Memory, s.Inv ∧ s.err = none ∧ s.bv = true ∧ s.invv = true ∧ exec .encblk s = .next t ∧
      (∀ i, i < s.len.val → Memory.read kept i = Memory.read t.buf i) ∧ Memory.wf kept = true ∧ kept ≠ t.buf :=
  ⟨_, _, [(0, 0x19), (1, 0x4B), (2, 0x23), (3, 0xFF)], ready_meets_invariants, rfl, rfl, rfl, rfl, by decide, by decide,
    by decide⟩

theorem witness_TransformsKeepNoHistory :
    ∃ s u : State, s ≠ u ∧ s.err = none ∧ u.err = none ∧ s.av = true ∧ u.av = true ∧ s.bv = true ∧ u.bv = true ∧
      s.invv = true ∧ u.invv = true ∧ s.a = u.a ∧ s.b = u.b ∧ s.inva = u.inva ∧ s.len = u.len ∧ s.x = u.x ∧
      (∀ k, k < s.len.val → Memory.read s.buf k = Memory.read u.buf k) ∧ Memory.wf s.buf = true ∧
      Memory.wf u.buf = true :=
  ⟨{ ready with len := 1, buf := [(0, 1)] }, { ready with len := 1, buf := [(0, 1), (5, 9)] }, by decide⟩

theorem witness_CompletedCommandWritesOnlyItsFields :
    ∃ t, exec .b2i keyed = .next t ∧ t.rsps = ⟨.completed, 0⟩ :: keyed.rsps ∧ writesField .b2i .buf = false :=
  ⟨_, rfl, rfl, rfl⟩

theorem witness_RaisedFaultWritesOnlyErr :
    (∃ t, exec .enc State.reset = .next t ∧ t.rsps = ⟨.raised .keyNotLoaded, 0⟩ :: State.reset.rsps ∧
      State.reset.err = none) ∧
    ∃ t, exec (.rd 255) dead = .next t ∧ t.rsps = ⟨.raised .badIndex, 0⟩ :: dead.rsps ∧
      dead.err = some .notInvertible := ⟨⟨_, rfl, rfl, rfl⟩, ⟨_, rfl, rfl, rfl⟩⟩

/-- Every code but 1 (which no command raises) is the answer of some command. -/
theorem witness_CausesAndCodes :
    answer? (exec .nop keyed) = some (0, 0) ∧ answer? (exec .modinv { keyed with a := 0 }) = some (2, 0) ∧
      answer? (exec .gcd State.reset) = some (3, 0) ∧ answer? (exec .decblk State.reset) = some (3, 0) ∧
      answer? (exec (.pushb 0) { keyed with len := 10 }) = some (4, 0) ∧
      answer? (exec (.setlen 11) keyed) = some (5, 0) ∧ answer? (exec (.rdb 0) keyed) = some (6, 0) ∧
      answer? (exec (.rd 7) keyed) = some (6, 0) ∧ answer? (exec .b2i dead) = some (7, 0) ∧
      answer? (exec .dec keyed) = some (8, 0) ∧ dead.err = some .notInvertible := by decide

theorem witness_OnlyReadsReturnData :
    ∃ t, exec (.rd 1) keyed = .next t ∧ t.rsps = ⟨.completed, 5⟩ :: keyed.rsps ∧ (5 : Data) ≠ 0 :=
  ⟨_, rfl, by decide, by decide⟩

theorem witness_ErrClearedOnlyByInitOrReset :
    ∃ t, dead.err = some .notInvertible ∧ step { dead with moves := [.command 0] } = .next t := ⟨_, rfl, rfl⟩

theorem witness_HaltedRunIsFrozen :
    ∃ t, dead.err ≠ none ∧
      (∀ move ∈ ({ dead with moves := [.command 0x310000000000000000000000, .command 0] } : State).moves,
        endsRun move = false) ∧
      Host.Core.run core 2 { dead with moves := [.command 0x310000000000000000000000, .command 0] } = .next t :=
  ⟨_, by decide, by decide, rfl⟩

theorem witness_KeyRegistersHaveTheirOwnWriters :
    (∃ t, step { ready with moves := [.command 0x100000000000000000000009] } = .next t ∧ t.a ≠ ready.a ∧
      t.inva ≠ ready.inva) ∧
    ∃ t, step { ready with moves := [.command 0x110000000000000000000009] } = .next t ∧ t.b ≠ ready.b :=
  ⟨⟨_, rfl, by decide, by decide⟩, ⟨_, rfl, by decide⟩⟩

end Sys2Proof.Tests
end

section
/-! PROOFS. The loop of `xgcd` in the terms of Bézout (40_modular_arithmetic.md R93, R97): its loop invariant, the
coefficient it ends with and the bound on it; and the gcd with a power of two (R98). -/

namespace Sys2Proof.Machine

/-! ## The gcd with `2^n` -/

theorem gcd_two_pow_eq_one_iff {a n : Nat} (hn : 0 < n) : Nat.gcd a (2 ^ n) = 1 ↔ a % 2 = 1 :=
  (Nat.coprime_pow_right_iff hn a 2).trans (Nat.coprime_two_right.trans Nat.odd_iff)

theorem exists_gcd_two_pow_eq (a n : Nat) : ∃ k, k ≤ n ∧ Nat.gcd a (2 ^ n) = 2 ^ k :=
  (Nat.dvd_prime_pow Nat.prime_two).1 (Nat.gcd_dvd_right a (2 ^ n))

/-! ## The loop of `xgcd` -/

/-- What holds at every turn of the loop of `xgcd(a, m)` with `a < m` (40_modular_arithmetic.md R93): both remainders
are their coefficient times `a` modulo `m`, the coefficients have opposite signs and the weights
`r0 * |t1| + r1 * |t0|` make `m`. Once `r1` is 0 the last quotient was at least 2, which halves the coefficient. -/
structure XgcdInv (a m r0 r1 : Nat) (t0 t1 : Int) : Prop where
  lt : r1 < r0
  bezout0 : (m : Int) ∣ a * t0 - r0
  bezout1 : (m : Int) ∣ a * t1 - r1
  signs : t0 * t1 ≤ 0
  weights : r0 * t1.natAbs + r1 * t0.natAbs = m
  halved : r1 = 0 → 2 * t0.natAbs ≤ t1.natAbs

theorem XgcdInv.start {a m : Nat} (h : a < m) : XgcdInv a m m a 0 1 where
  lt := h
  bezout0 := by simp
  bezout1 := by simp
  signs := by simp
  weights := by simp
  halved := by simp

/-- Coefficients of opposite signs add up in magnitude. -/
theorem natAbs_sub_mul_of_signs {t0 t1 : Int} (h : t0 * t1 ≤ 0) (q : Nat) :
    (t0 - q * t1).natAbs = t0.natAbs + q * t1.natAbs := by
  rcases mul_nonpos_iff.1 h with ⟨h0, h1⟩ | ⟨h0, h1⟩
  · have : 0 ≤ -(q * t1) := by nlinarith
    have := Int.natAbs_add_of_nonneg h0 this
    rwa [← sub_eq_add_neg, Int.natAbs_neg, Int.natAbs_mul, Int.natAbs_natCast] at this
  · have : -(q * t1) ≤ 0 := by nlinarith
    have := Int.natAbs_add_of_nonpos h0 this
    rwa [← sub_eq_add_neg, Int.natAbs_neg, Int.natAbs_mul, Int.natAbs_natCast] at this

/-- One turn of the loop keeps its invariant. -/
theorem XgcdInv.turn {a m r0 r1 : Nat} {t0 t1 : Int} (h : XgcdInv a m r0 r1 t0 t1) (hr : r1 ≠ 0) :
    XgcdInv a m r1 (r0 - r0 / r1 * r1) t1 (t0 - (r0 / r1 : Nat) * t1) := by
  have hdiv : r0 / r1 * r1 ≤ r0 := Nat.div_mul_le_self r0 r1
  have hmod : r0 - r0 / r1 * r1 = r0 % r1 := by rw [Nat.mul_comm]; exact Nat.mod_eq_sub_mul_div.symm
  have habs := natAbs_sub_mul_of_signs h.signs (r0 / r1)
  refine ⟨?lt, h.bezout1, ?bezout1, ?signs, ?weights, ?halved⟩
  case lt => rw [hmod]; exact Nat.mod_lt r0 (Nat.pos_of_ne_zero hr)
  case bezout1 =>
    have hd := dvd_sub h.bezout0 (h.bezout1.mul_left ((r0 / r1 : Nat) : Int))
    rw [Nat.cast_sub hdiv, Nat.cast_mul]
    rw [show a * (t0 - (r0 / r1 : Nat) * t1) - ((r0 : Int) - (r0 / r1 : Nat) * r1) =
      a * t0 - r0 - (r0 / r1 : Nat) * (a * t1 - r1) by ring]
    exact hd
  case signs => nlinarith [h.signs, mul_self_nonneg t1, Int.natCast_nonneg (r0 / r1)]
  case weights =>
    rw [habs, ← h.weights]
    have hsum : r0 / r1 * r1 * t1.natAbs + (r0 - r0 / r1 * r1) * t1.natAbs = r0 * t1.natAbs := by
      rw [← Nat.add_mul, Nat.add_sub_cancel' hdiv]
    rw [← hsum]
    ring
  case halved =>
    intro hz
    have hlt := h.lt
    have hq : 2 ≤ r0 / r1 := by
      by_contra hq
      have : r0 / r1 * r1 ≤ 1 * r1 := Nat.mul_le_mul_right r1 (by omega)
      omega
    rw [habs]
    exact (Nat.mul_le_mul_right _ hq).trans (Nat.le_add_left _ _)

/-- The loop ends with a Bézout coefficient of magnitude at most `m / (2 gcd)`. -/
theorem xgcdLoop_bezout {a m fuel r0 r1 : Nat} {t0 t1 : Int} (hf : r1 < fuel) (h : XgcdInv a m r0 r1 t0 t1) :
    (m : Int) ∣ a * (xgcdLoop fuel r0 r1 t0 t1).2 - (xgcdLoop fuel r0 r1 t0 t1).1 ∧
      2 * (xgcdLoop fuel r0 r1 t0 t1).1 * (xgcdLoop fuel r0 r1 t0 t1).2.natAbs ≤ m := by
  induction fuel generalizing r0 r1 t0 t1 with
  | zero => omega
  | succ fuel ih =>
    simp only [xgcdLoop]
    split_ifs with hr
    · refine ⟨h.bezout0, ?_⟩
      calc 2 * r0 * t0.natAbs = r0 * (2 * t0.natAbs) := by ring
        _ ≤ r0 * t1.natAbs := Nat.mul_le_mul_left r0 (h.halved hr)
        _ ≤ m := by rw [← h.weights]; exact Nat.le_add_right _ _
    · have hturn := h.turn hr
      exact ih (by have := hturn.lt; omega) hturn

/-- The second result of `xgcd(a, m)` is a Bézout coefficient for `a` (40_modular_arithmetic.md R93 (a)). -/
theorem xgcd_bezout {a m : Nat} (h : a < m) : (m : Int) ∣ a * (xgcd a m).2 - Nat.gcd a m := by
  rw [← xgcd_fst]
  exact (xgcdLoop_bezout (Nat.lt_succ_self a) (.start h)).1

/-- The coefficient is at most `m / (2 gcd)` in magnitude (40_modular_arithmetic.md R93 (d)). -/
theorem two_mul_gcd_mul_xgcd_le {a m : Nat} (h : a < m) : 2 * Nat.gcd a m * (xgcd a m).2.natAbs ≤ m := by
  rw [← xgcd_fst]
  exact (xgcdLoop_bezout (Nat.lt_succ_self a) (.start h)).2

/-- For odd `a` the coefficient is an inverse of `a` modulo `2^80` (40_modular_arithmetic.md R97). -/
theorem mul_xgcd_emod {a : Nat} (h : a < 2 ^ 80) (hodd : a % 2 = 1) : (a * (xgcd a (2 ^ 80)).2 : Int) % 2 ^ 80 = 1 := by
  have hb := xgcd_bezout h
  rw [(gcd_two_pow_eq_one_iff (by norm_num)).2 hodd, Nat.cast_pow, Nat.cast_ofNat, Nat.cast_one] at hb
  exact Eq.trans (Int.modEq_iff_dvd.2 hb).symm (Int.emod_eq_of_lt one_pos.le (by norm_num))

/-- For odd `a` the coefficient lies strictly between `-2^79` and `2^79`: `2^79` itself is even and so no inverse
(40_modular_arithmetic.md R97). -/
theorem xgcd_natAbs_lt {a : Nat} (h : a < 2 ^ 80) (hodd : a % 2 = 1) : (xgcd a (2 ^ 80)).2.natAbs < 2 ^ 79 := by
  have hle := two_mul_gcd_mul_xgcd_le h
  rw [(gcd_two_pow_eq_one_iff (by norm_num)).2 hodd] at hle
  have hinv := mul_xgcd_emod h hodd
  have hne : (xgcd a (2 ^ 80)).2 % 2 ≠ 0 := by
    intro heven
    have : (a * (xgcd a (2 ^ 80)).2 : Int) % 2 = 0 := by rw [Int.mul_emod, heven]; simp
    omega
  omega

/-- An inverse modulo `2^80` stays one when it is reduced (40_modular_arithmetic.md R94). -/
theorem mul_normalizeM_mod {a : Nat} {p : Int} (h : (a * p) % 2 ^ 80 = 1) : a * normalizeM p % 2 ^ 80 = 1 := by
  have hcast : ((a * normalizeM p % 2 ^ 80 : Nat) : Int) = 1 := by
    rw [Int.natCast_mod, Nat.cast_mul, normalizeM_cast, Nat.cast_pow, Nat.cast_ofNat]
    exact Eq.trans ((Int.mod_modEq p (2 ^ 80)).mul_left a) h
  exact_mod_cast hcast

end Sys2Proof.Machine
end

section
/-! PROOFS. The state, the step and reset (10_state.md, 70_reset_and_hazards.md): what a reset and INIT leave, where the
fields of STATUS lie, and what a command and a step write. -/

namespace Sys2Proof.Machine

/-! ## Reset, INIT and the placed word -/

/-- A waiting reset is taken in every state (70_reset_and_hazards.md R210, R213). -/
theorem step_of_reset {s : State} {moves : List HostMove} (h : s.moves = .reset :: moves) :
    step s = .next (s.takeMove moves).assertReset := by
  simp only [step, nextMove, h]

theorem exec_init (s : State) : exec .init s = .next s.startRun.complete := rfl

/-- Settles O1: a reset ends in `assertReset` and INIT in `startRun`, whose fields are those of the reset state. -/
theorem resetAndInitZeroEverything : Obligations.ResetAndInitZeroEverything := by
  rintro s t (⟨⟨moves, hmoves⟩, hstep⟩ | hexec)
  · rw [step_of_reset hmoves] at hstep
    cases hstep
    exact ⟨rfl, rfl, rfl, rfl, rfl, rfl, rfl, rfl, rfl, fun _ _ => rfl, rfl, rfl⟩
  · rw [exec_init] at hexec
    cases hexec
    exact ⟨rfl, rfl, rfl, rfl, rfl, rfl, rfl, rfl, rfl, fun _ _ => rfl, rfl, rfl⟩

/-- The decoder reads back what the encoder wrote (30_encoding.md R71, R75). -/
theorem decode_encode (i : Instr) : decode (encode i) = .ok i := by
  obtain ⟨hopc, harg, himm⟩ : Laws.EncodedFields.Statement i := Laws.EncodedFields.fields_of_append ..
  rw [decode, hopc, harg, himm]
  cases i <;> rfl

/-- Settles O8: the placed number is the word itself, the step takes it, and the decoder reads the command back. -/
theorem placedWordIsExecutedNext : Obligations.PlacedWordIsExecutedNext := by
  intro s i
  have hword : BitVec.ofNat 96 ((encode i).toNat % 2 ^ 96) = encode i := by
    rw [Nat.mod_eq_of_lt (encode i).isLt, BitVec.ofNat_toNat, BitVec.setWidth_eq]
  simp only [step, nextMove, State.withFetchWord, hword, if_true, executeWord, decode_encode]
  rfl

/-! ## STATUS (10_state.md R34) -/

theorem State.status_getLsbD_err (s : State) {k : Nat} (hk : k < 8) : s.status.getLsbD k = s.errByte.getLsbD k := by
  simp only [State.status, BitVec.getLsbD_append, if_pos hk]

theorem State.status_getLsbD_len (s : State) {k : Nat} (hk : k < 4) :
    s.status.getLsbD (12 + k) = (BitVec.ofNat 4 s.len.val).getLsbD k := by
  simp only [State.status, BitVec.getLsbD_append]
  rw [if_neg (by omega), if_neg (by omega), if_neg (by omega), if_neg (by omega), if_neg (by omega), if_pos (by omega),
    show 12 + k - 8 - 1 - 1 - 1 - 1 = k by omega]

theorem State.status_getLsbD_reserved (s : State) (k : Nat) : s.status.getLsbD (16 + k) = false := by
  simp only [State.status, BitVec.getLsbD_append]
  rw [if_neg (by omega), if_neg (by omega), if_neg (by omega), if_neg (by omega), if_neg (by omega), if_neg (by omega),
    BitVec.ofNat_eq_ofNat, BitVec.getLsbD_zero]

theorem State.status_getLsbD_flags (s : State) :
    s.status.getLsbD 8 = s.av ∧ s.status.getLsbD 9 = s.bv ∧ s.status.getLsbD 10 = s.invv ∧
      s.status.getLsbD 11 = false := by
  simp only [State.status, BitVec.getLsbD_append]
  simp

/-- Settles O26: each field lies in one part of the concatenation that STATUS is. -/
theorem statusFieldsAreInPlace : Obligations.StatusFieldsAreInPlace := by
  intro s
  obtain ⟨hav, hbv, hinvv, hzero⟩ := s.status_getLsbD_flags
  refine ⟨BitVec.eq_of_getLsbD_eq fun k hk => ?err, hav, hbv, hinvv, hzero, ?len,
    BitVec.eq_of_getLsbD_eq fun k hk => ?reserved⟩
  case err => simp [hk, State.status_getLsbD_err]
  case len =>
    have hlen : s.status.extractLsb' 12 4 = BitVec.ofNat 4 s.len.val := by
      refine BitVec.eq_of_getLsbD_eq fun k hk => ?_
      rw [BitVec.getLsbD_extractLsb', s.status_getLsbD_len hk, decide_eq_true hk, Bool.true_and]
    rw [hlen, BitVec.toNat_ofNat, Nat.mod_eq_of_lt (by omega)]
  case reserved => simp [BitVec.getLsbD_extractLsb', s.status_getLsbD_reserved]

/-! ## What a command and a step write -/

/-- Settles O54: the inversion of exec has the frame of the table in its completed case, and no other case answers
code 0. -/
theorem completedCommandWritesOnlyItsFields : Obligations.CompletedCommandWritesOnlyItsFields := by
  intro i s t d hexec hrsps
  obtain ⟨-, -, rfl⟩ | ⟨-, ⟨c, rfl⟩ | ⟨-, -, -, rfl⟩ | ⟨_, -, hmoves, hreset, hframe⟩⟩ := exec_cases hexec
  · simp at hrsps
  · simp at hrsps
  · simp at hrsps
  · exact ⟨hframe, hmoves, hreset⟩

theorem refuseHalted_agree (s : State) (f : Field) : (refuseHalted s).agree s f := by
  cases f <;> rfl

/-- A fault raised writes no field but ERR, and not ERR on a halted core (60_exceptions.md R183). -/
theorem raise_agree {s : State} {f : Field} (c : Cause) (h : f = .err → s.err ≠ none) : (raise c s).agree s f := by
  cases f
  case err =>
    obtain ⟨first, hfirst⟩ := Option.ne_none_iff_exists'.1 (h rfl)
    exact (State.recordFault_err_halted hfirst c).trans hfirst.symm
  all_goals rfl

/-- The fault of MODINV writes G as well (60_exceptions.md R183). -/
theorem raise_putG_agree {s : State} {f : Field} (c : Cause) (n : Nat) (hg : f ≠ .g) (h : f = .err → s.err ≠ none) :
    (raise c (s.putG n)).agree s f := by
  cases f
  case g => exact absurd rfl hg
  case err => exact raise_agree (s := s.putG n) c h
  all_goals rfl

/-- A command, whether it completes or not, writes only the fields the table of R41 marks for it; to ERR this applies
once it is not 0, since the first fault sets it. -/
theorem exec_agree_or_writes {i : Instr} {s t : State} {f : Field} (hexec : exec i s = .next t)
    (hf : f = .err → s.err ≠ none) : t.agree s f ∨ writesField i f = true := by
  obtain ⟨-, -, rfl⟩ | ⟨-, ⟨c, rfl⟩ | ⟨rfl, -, -, rfl⟩ | ⟨_, -, -, -, hframe⟩⟩ := exec_cases hexec
  · exact .inl (refuseHalted_agree s f)
  · exact .inl (raise_agree c hf)
  · by_cases hg : f = .g
    · exact .inr (by rw [hg]; rfl)
    · exact .inl (raise_putG_agree _ _ hg hf)
  · cases hw : writesField i f with
    | true => exact .inr rfl
    | false => exact .inl (hframe f hw)

/-- An illegal word writes no field but ERR, and not ERR on a halted core (60_exceptions.md R185). -/
theorem executeIllegal_agree {s t : State} {f : Field} (h : executeIllegal s = .next t)
    (hf : f = .err → s.err ≠ none) : t.agree s f := by
  rcases executeIllegal_cases s with ⟨-, he⟩ | ⟨-, he⟩ <;> rw [he] at h <;> cases h
  · exact raise_agree _ hf
  · exact refuseHalted_agree s f

/-- Taking a move writes no architectural field. -/
theorem agree_takeMove {s t : State} {moves : List HostMove} {f : Field} :
    t.agree (s.takeMove moves) f ↔ t.agree s f := by
  cases f <;> rfl

/-- Where a step changes a field, its move is a reset or a command that the table of R41 marks as writing it. -/
theorem step_agree_or_writes {s t : State} {f : Field} (hstep : step s = .next t) (hf : f = .err → s.err ≠ none) :
    t.agree s f ∨ (∃ moves, s.moves = .reset :: moves ∧ t = (s.takeMove moves).assertReset) ∨
      ∃ w moves i, s.moves = .command w :: moves ∧ decode w = .ok i ∧ exec i (s.takeMove moves) = .next t ∧
        writesField i f = true := by
  obtain hreset | ⟨w, moves, i, hmoves, -, hdec, hexec⟩ | ⟨w, moves, why, -, -, -, hill⟩ | ⟨-, -, rfl⟩ :=
    step_cases hstep
  · exact .inr (.inl hreset)
  · rcases exec_agree_or_writes (f := f) hexec hf with hagree | hwrites
    · exact .inl (agree_takeMove.1 hagree)
    · exact .inr (.inr ⟨w, moves, i, hmoves, hdec, hexec, hwrites⟩)
  · exact .inl (agree_takeMove.1 (executeIllegal_agree hill hf))
  · exact .inl (by cases f <;> rfl)

/-- INIT is the only command marked for ERR. -/
theorem eq_init_of_writesField_err {i : Instr} (h : writesField i .err = true) : i = .init := by
  cases i <;> simp [writesField] at h ⊢

theorem endsRun_of_init {w : CommandWord} (h : decode w = .ok .init) : endsRun (.command w) = true := by
  simp [endsRun, h]

/-- Settles O58: on a halted core nothing but INIT and reset writes ERR, and both leave it 0. -/
theorem errClearedOnlyByInitOrReset : Obligations.ErrClearedOnlyByInitOrReset := by
  intro s t first herr hstep
  have hhalted : Field.err = .err → s.err ≠ none := fun _ => by simp [herr]
  rcases step_agree_or_writes hstep hhalted with
    hagree | ⟨moves, hmoves, rfl⟩ | ⟨w, moves, i, hmoves, hdec, hexec, hwrites⟩
  · exact .inl (hagree.trans herr)
  · exact .inr ⟨rfl, _, _, hmoves, rfl⟩
  · obtain rfl := eq_init_of_writesField_err hwrites
    rw [exec_init] at hexec
    cases hexec
    exact .inr ⟨rfl, _, _, hmoves, endsRun_of_init hdec⟩

/-- A field other than ERR that a step changes names the move: one that ends the run, or a command marked for it. -/
theorem exists_writer_of_not_agree {s t : State} {f : Field} {writer : HostMove → Prop} (hstep : step s = .next t)
    (hf : f ≠ .err) (hchanged : ¬ t.agree s f)
    (hwriter : ∀ w i, decode w = .ok i → i ≠ .init → writesField i f = true → writer (.command w)) :
    ∃ move moves, s.moves = move :: moves ∧ (endsRun move = true ∨ writer move) := by
  rcases step_agree_or_writes hstep (absurd · hf) with
    hagree | ⟨moves, hmoves, -⟩ | ⟨w, moves, i, hmoves, hdec, -, hwrites⟩
  · exact absurd hagree hchanged
  · exact ⟨_, _, hmoves, .inl rfl⟩
  · by_cases hinit : i = .init
    · subst hinit
      exact ⟨_, _, hmoves, .inl (endsRun_of_init hdec)⟩
    · exact ⟨_, _, hmoves, .inr (hwriter w i hdec hinit hwrites)⟩

theorem eq_lda_of_writesField_a {i : Instr} (hi : i ≠ .init) (h : writesField i .a = true) : ∃ a, i = .lda a := by
  cases i <;> simp [writesField] at h hi ⊢

theorem eq_ldb_of_writesField_b {i : Instr} (hi : i ≠ .init) (h : writesField i .b = true) : ∃ b, i = .ldb b := by
  cases i <;> simp [writesField] at h hi ⊢

theorem eq_modinv_or_lda_of_writesField_inva {i : Instr} (hi : i ≠ .init) (h : writesField i .inva = true) :
    i = .modinv ∨ ∃ a, i = .lda a := by
  cases i <;> simp [writesField] at h hi ⊢

/-- Settles O60: the table marks A, B and INVA for no other commands. -/
theorem keyRegistersHaveTheirOwnWriters : Obligations.KeyRegistersHaveTheirOwnWriters := by
  intro s t hstep
  refine ⟨fun hne => ?a, fun hne => ?b, fun hne => ?inva⟩
  case a =>
    refine exists_writer_of_not_agree (f := .a) hstep nofun hne fun w i hdec hi hwrites => ?_
    obtain ⟨a, rfl⟩ := eq_lda_of_writesField_a hi hwrites
    exact ⟨w, a, rfl, hdec⟩
  case b =>
    refine exists_writer_of_not_agree (f := .b) hstep nofun hne fun w i hdec hi hwrites => ?_
    obtain ⟨b, rfl⟩ := eq_ldb_of_writesField_b hi hwrites
    exact ⟨w, b, rfl, hdec⟩
  case inva =>
    refine exists_writer_of_not_agree (f := .inva) hstep nofun hne fun w i hdec hi hwrites => ?_
    obtain rfl | ⟨a, rfl⟩ := eq_modinv_or_lda_of_writesField_inva hi hwrites
    · exact ⟨w, rfl, .inl hdec⟩
    · exact ⟨w, rfl, .inr ⟨a, hdec⟩⟩

end Sys2Proof.Machine
end

section
/-! PROOFS. The invariants of 10_state.md R38: each named update keeps them, so every command and every step does. -/

namespace Sys2Proof.Machine

/-! ## The invariants by their fields -/

/-- ERR holds one of its eight values by its type (10_state.md R38 item 6). -/
theorem State.errByte_mem (s : State) : s.errByte ∈ [0, 1, 2, 3, 4, 5, 6, 8] := by
  unfold State.errByte
  cases s.err with
  | none => decide
  | some cause => cases cause <;> decide

/-- The clauses of R38 that do not hold by a field's type alone. -/
theorem State.Inv.of_clauses {s : State} (hinv : s.invv = true → s.InverseGood)
    (hnoinv : s.invv = false → s.inva = 0 ∧ s.p = 0) (hav : s.av = false → s.a = 0 ∧ s.g = 0 ∧ s.invv = false)
    (hbv : s.bv = false → s.b = 0) (hg : s.GcdGood) (hbuf : Memory.wf s.buf = true) : s.Inv :=
  ⟨Nat.le_of_lt_succ s.len.isLt, hinv, hnoinv, hav, hbv, hg, s.errByte_mem, hbuf⟩

theorem State.Inv.bufferCanonical {s : State} (hs : s.Inv) : Memory.wf s.buf = true := by
  obtain ⟨-, -, -, -, -, -, -, hbuf⟩ := hs
  exact hbuf

/-- INIT and reset leave no key, no inverse and an empty buffer, which the invariants allow (10_state.md R40). -/
theorem startRun_inv (s : State) : s.startRun.Inv :=
  .of_clauses nofun (fun _ => ⟨rfl, rfl⟩) (fun _ => ⟨rfl, rfl, rfl⟩) (fun _ => rfl) ⟨.inl rfl, (absurd rfl ·)⟩ rfl

/-- The fields R38 relates to each other: the key registers, what was computed of them, and their flags. -/
def keyFields : List Field := [.a, .b, .inva, .g, .p, .av, .bv, .invv]

/-- The invariants look at the key registers and the buffer's form alone. -/
theorem State.Inv.of_agree {s t : State} (hs : s.Inv) (hkey : ∀ f ∈ keyFields, t.agree s f)
    (hbuf : Memory.wf t.buf = true) : t.Inv := by
  simp only [keyFields, List.forall_mem_cons, State.agree, List.not_mem_nil, false_imp_iff, implies_true, and_true]
    at hkey
  obtain ⟨ha, hb, hinva, hg, hp, hav, hbv, hinvv⟩ := hkey
  obtain ⟨-, hinv, hnoinv, hnoa, hnob, hgcd, -, -⟩ := hs
  refine .of_clauses ?_ ?_ ?_ ?_ ?_ hbuf
  · simpa only [State.InverseGood, ha, hinva, hg, hp, hav, hinvv] using hinv
  · simpa only [hinva, hp, hinvv] using hnoinv
  · simpa only [ha, hg, hav, hinvv] using hnoa
  · simpa only [hb, hbv] using hnob
  · simpa only [State.GcdGood, ha, hg, hav] using hgcd

/-! ## Each update keeps the invariants -/

section Updates
variable {s : State} (hs : s.Inv)
include hs

theorem State.Inv.of_takeMove (moves : List HostMove) : (s.takeMove moves).Inv :=
  hs.of_agree (by simp [keyFields, State.agree]) hs.bufferCanonical

theorem State.Inv.of_respond (code : Code) (data : Data) : (s.respond code data).Inv :=
  hs.of_agree (by simp [keyFields, State.agree]) hs.bufferCanonical

theorem State.Inv.of_raise (c : Cause) : (raise c s).Inv :=
  hs.of_agree (by simp [keyFields, State.agree]) hs.bufferCanonical

theorem State.Inv.of_putX (v : Word) : (s.putX v).Inv :=
  hs.of_agree (by simp [keyFields, State.agree]) hs.bufferCanonical

theorem State.Inv.of_putLen (n : Fin 11) : (s.putLen n).Inv :=
  hs.of_agree (by simp [keyFields, State.agree]) hs.bufferCanonical

theorem State.Inv.of_putBuf {m : Memory} (hm : Memory.wf m = true) : (s.putBuf m).Inv :=
  hs.of_agree (by simp [keyFields, State.agree]) hm

/-- The ten bytes of a value over a canonical buffer are a canonical buffer (41_converter.md R129). -/
theorem State.Inv.of_putBuf_block (v : Nat) : (s.putBuf (memWrite s.buf 0 Config.blockBytes v)).Inv :=
  hs.of_putBuf (wf_memWrite v hs.bufferCanonical (by decide))

theorem State.Inv.of_putBlock (v : Nat) : (s.putBlock v).Inv :=
  (hs.of_putX _).of_putBuf_block v

/-- LDA: a loaded A with nothing computed of it yet. -/
theorem State.Inv.of_putA_clearDerived (a : Word) : (s.putA a).clearDerived.Inv := by
  obtain ⟨-, -, -, -, hnob, -, -, hbuf⟩ := hs
  exact .of_clauses nofun (fun _ => ⟨rfl, rfl⟩) nofun hnob ⟨.inl rfl, (absurd rfl ·)⟩ hbuf

theorem State.Inv.of_putB (b : Word) : (s.putB b).Inv := by
  obtain ⟨-, hinv, hnoinv, hnoa, -, hgcd, -, hbuf⟩ := hs
  exact .of_clauses hinv hnoinv hnoa nofun hgcd hbuf

end Updates

/-- The gcd of A and M fits the 81 bits of G (10_state.md R25). -/
theorem putG_gcd_toNat (s : State) (a : Nat) : (s.putG (Nat.gcd a (2 ^ 80))).g.toNat = Nat.gcd a (2 ^ 80) :=
  Nat.mod_eq_of_lt ((Nat.gcd_le_right a (by norm_num)).trans_lt (by norm_num))

/-- The gcd of a loaded A and M is a good value of G. -/
theorem gcdGood_putG_gcd {s : State} (hav : s.av = true) : (s.putG (Nat.gcd s.a.toNat (2 ^ 80))).GcdGood := by
  obtain ⟨k, hk, hgcd⟩ := exists_gcd_two_pow_eq s.a.toNat 80
  exact ⟨.inr ⟨k, hk, (putG_gcd_toNat s _).trans hgcd⟩, fun _ => ⟨hav, putG_gcd_toNat s _⟩⟩

/-- GCD, and MODINV before its test: an inverse that is held stays good, since its A is odd and so the gcd is 1. -/
theorem State.Inv.of_putG_gcd {s : State} (hs : s.Inv) (hav : s.av = true) :
    (s.putG (Nat.gcd s.a.toNat (2 ^ 80))).Inv := by
  obtain ⟨-, hinv, hnoinv, -, hnob, -, -, hbuf⟩ := hs
  refine .of_clauses (fun hinvv => ?_) hnoinv (absurd hav <| Bool.eq_false_iff.1 ·) hnob (gcdGood_putG_gcd hav) hbuf
  obtain ⟨-, hodd, -, hmul, hlow, hhigh, hred⟩ := hinv hinvv
  have hg : (s.putG (Nat.gcd s.a.toNat (2 ^ 80))).g = 1 := by
    rw [(gcd_two_pow_eq_one_iff (by norm_num)).2 hodd]; rfl
  exact ⟨hav, hodd, hg, hmul, hlow, hhigh, hred⟩

/-- `P` holds the coefficient itself where that is centred, and INVA its reduction (10_state.md R26). -/
theorem putInverse_toInt {s : State} {p : Int} (h : p.natAbs < 2 ^ 79) : (s.putInverse p).p.toInt = p :=
  BitVec.toInt_ofInt_eq_self (by norm_num) (by omega) (by omega)

theorem putInverse_inva_toNat (s : State) (p : Int) : (s.putInverse p).inva.toNat = normalizeM p :=
  Nat.mod_eq_of_lt (normalizeM_lt p)

/-- MODINV on an odd multiplier: the coefficient the loop finds is a centred inverse (40_modular_arithmetic.md R97). -/
theorem inverseGood_putInverse_xgcd {s : State} (hav : s.av = true) (hodd : s.a.toNat % 2 = 1) :
    ((s.putG 1).putInverse (xgcd s.a.toNat (2 ^ 80)).2).InverseGood := by
  have hlt := xgcd_natAbs_lt s.a.isLt hodd
  refine ⟨hav, hodd, rfl, ?mul, ?low, ?high, ?reduced⟩
  case mul => rw [putInverse_inva_toNat]; exact mul_normalizeM_mod (mul_xgcd_emod s.a.isLt hodd)
  case low => rw [putInverse_toInt hlt]; omega
  case high => rw [putInverse_toInt hlt]; omega
  case reduced => rw [putInverse_toInt hlt, putInverse_inva_toNat]; exact normalizeM_cast _

theorem State.Inv.of_putInverse_xgcd {s : State} (hs : s.Inv) (hav : s.av = true) (hodd : s.a.toNat % 2 = 1) :
    ((s.putG 1).putInverse (xgcd s.a.toNat (2 ^ 80)).2).Inv := by
  have hgcd := gcdGood_putG_gcd hav
  rw [(gcd_two_pow_eq_one_iff (by norm_num)).2 hodd] at hgcd
  obtain ⟨-, -, -, -, hnob, -, -, hbuf⟩ := hs
  exact .of_clauses (fun _ => inverseGood_putInverse_xgcd hav hodd) nofun (absurd hav <| Bool.eq_false_iff.1 ·) hnob
    hgcd hbuf

/-- What MODINV leaves, whether A has an inverse or not (40_modular_arithmetic.md R102, R103). -/
theorem State.Inv.of_takeInverse {s : State} (hs : s.Inv) (hav : s.av = true) :
    (takeInverse (xgcd s.a.toNat (2 ^ 80)) s).Inv := by
  rcases takeInverse_cases (xgcd s.a.toNat (2 ^ 80)) s with ⟨hone, he⟩ | ⟨-, he⟩ <;> rw [he]
  · rw [xgcd_fst, gcd_two_pow_eq_one_iff (by norm_num)] at hone
    exact (hs.of_putInverse_xgcd hav hone).of_respond _ _
  · rw [xgcd_fst]
    exact (hs.of_putG_gcd hav).of_raise _

/-! ## The prologue and the key checks keep them where the rule does -/

section Checks
variable {s : State} (hs : s.Inv) {rule : State → State}
include hs

theorem State.Inv.of_unlessHalted {t : State} (h : unlessHalted rule s = .next t) (hrule : (rule s).Inv) : t.Inv := by
  obtain ⟨-, rfl⟩ | ⟨-, rfl⟩ := unlessHalted_cases h
  · exact hrule
  · exact hs.of_respond _ _

theorem State.Inv.of_withMultiplier (hrule : s.av = true → (rule s).Inv) : (withMultiplier rule s).Inv := by
  rcases withMultiplier_cases rule s with ⟨hav, he⟩ | ⟨-, he⟩ <;> rw [he]
  · exact hrule hav
  · exact hs.of_raise _

theorem State.Inv.of_withEncryptionKey (hrule : (rule s).Inv) : (withEncryptionKey rule s).Inv := by
  rcases withEncryptionKey_cases rule s with ⟨-, he⟩ | ⟨-, he⟩ <;> rw [he]
  · exact hrule
  · exact hs.of_raise _

theorem State.Inv.of_withDecryptionKey (hrule : (rule s).Inv) : (withDecryptionKey rule s).Inv := by
  rcases withDecryptionKey_cases rule s with ⟨-, he⟩ | ⟨-, he⟩ | ⟨-, he⟩ <;> rw [he]
  · exact hrule
  · exact hs.of_raise _
  · exact hs.of_raise _

end Checks

/-! ## Every command and every step keeps them -/

theorem State.Inv.of_exec {s t : State} {i : Instr} (hs : s.Inv) (h : exec i s = .next t) : t.Inv := by
  cases i with
  | nop => cases h; exact hs.of_respond _ _
  | init => cases h; exact (startRun_inv s).of_respond _ _
  | rd reg =>
    cases h
    rcases registerView_cases reg s with ⟨-, value, hv⟩ | ⟨-, hv⟩ <;> simp only [hv]
    · exact hs.of_respond _ _
    · exact hs.of_raise _
  | lda a =>
    rw [exec, execLda] at h
    exact hs.of_unlessHalted h ((hs.of_putA_clearDerived a).of_respond _ _)
  | ldb b =>
    rw [exec, execLdb] at h
    exact hs.of_unlessHalted h ((hs.of_putB b).of_respond _ _)
  | ldx v =>
    rw [exec, execLdx] at h
    exact hs.of_unlessHalted h ((hs.of_putX v).of_respond _ _)
  | gcd =>
    rw [exec, execGcd] at h
    refine hs.of_unlessHalted h (hs.of_withMultiplier fun hav => ?_)
    rw [gcdOf_eq, modulus_eq]
    exact (hs.of_putG_gcd hav).of_respond _ _
  | modinv =>
    rw [exec, execModinv] at h
    refine hs.of_unlessHalted h (hs.of_withMultiplier fun hav => ?_)
    rw [modulus_eq]
    exact hs.of_takeInverse hav
  | setlen n =>
    rw [exec, execSetlen] at h
    refine hs.of_unlessHalted h ?_
    rcases blockLength_cases n with ⟨_, hn⟩ | ⟨-, hn⟩ <;> simp only [hn]
    · exact (hs.of_putLen _).of_respond _ _
    · exact hs.of_raise _
  | pushb byte =>
    rw [exec, execPushb] at h
    refine hs.of_unlessHalted h ?_
    rcases pushSlot_cases s with ⟨hlt, hslot⟩ | ⟨-, hslot⟩ <;> simp only [hslot]
    · have hwf := Memory.wf_write byte hs.bufferCanonical (Nat.lt_of_succ_lt_succ hlt)
      exact ((hs.of_putBuf hwf).of_putLen _).of_respond _ _
    · exact hs.of_raise _
  | rdb index =>
    rw [exec, execRdb] at h
    refine hs.of_unlessHalted h ?_
    rcases bufferIndex_cases index s with ⟨-, hidx⟩ | ⟨-, hidx⟩ <;> simp only [hidx]
    · exact hs.of_respond _ _
    · exact hs.of_raise _
  | b2i =>
    rw [exec, execB2i] at h
    exact hs.of_unlessHalted h ((hs.of_putX _).of_respond _ _)
  | i2b =>
    rw [exec, execI2b] at h
    exact hs.of_unlessHalted h ((hs.of_putBuf_block _).of_respond _ _)
  | enc =>
    rw [exec, execEnc] at h
    exact hs.of_unlessHalted h (hs.of_withEncryptionKey ((hs.of_putX _).of_respond _ _))
  | dec =>
    rw [exec, execDec] at h
    exact hs.of_unlessHalted h (hs.of_withDecryptionKey ((hs.of_putX _).of_respond _ _))
  | encblk =>
    rw [exec, execEncblk] at h
    exact hs.of_unlessHalted h (hs.of_withEncryptionKey ((hs.of_putBlock _).of_respond _ _))
  | decblk =>
    rw [exec, execDecblk] at h
    exact hs.of_unlessHalted h (hs.of_withDecryptionKey ((hs.of_putBlock _).of_respond _ _))

/-- Settles O4: a reset starts from the zero state, and a word taken is a command or an illegal word, which raises. -/
theorem stepKeepsInvariants : Obligations.StepKeepsInvariants := by
  intro s t hs hstep
  obtain ⟨moves, -, rfl⟩ | ⟨_, moves, _, -, -, -, hexec⟩ | ⟨_, moves, _, -, -, -, hill⟩ | ⟨-, -, rfl⟩ :=
    step_cases hstep
  · exact (startRun_inv (s.takeMove moves)).of_agree (by simp [keyFields, State.agree]) rfl
  · exact (hs.of_takeMove moves).of_exec hexec
  · exact (hs.of_takeMove moves).of_unlessHalted hill ((hs.of_takeMove moves).of_raise _)
  · exact hs

/-- Settles O3: the reset state is a state in which a run has just started. -/
theorem resetStateMeetsInvariants : Obligations.ResetStateMeetsInvariants :=
  startRun_inv State.reset

/-- Settles O5: the invariants hold in the reset state whatever moves wait, and every step keeps them. -/
theorem reachableStatesMeetInvariants : Obligations.ReachableStatesMeetInvariants := by
  intro moves k t hrun
  exact run_induction stepKeepsInvariants (State.Inv.of_takeMove resetStateMeetsInvariants moves) hrun

end Sys2Proof.Machine
end

section
/-! PROOFS. The block buffer (20_memory.md): the four things a step can do to it, all of which keep its canonical form
(R51, R59), and that the cells at and above LEN are not read (R66). -/

namespace Sys2Proof.Machine

/-! ## What a step does to the buffer -/

/-- The accesses of 20_memory.md R56 that write, and the clearing by INIT and reset: the buffer before and after. -/
inductive BufferUpdate (m : Memory) : Memory → Prop
  | kept : BufferUpdate m m
  | cleared : BufferUpdate m []
  | byteWritten (addr : Nat) (v : Byte) (h : addr < 10) : BufferUpdate m (Memory.write m addr v)
  | blockWritten (v : Nat) : BufferUpdate m (memWrite m 0 Config.blockBytes v)

theorem BufferUpdate.keeps_wf {m m' : Memory} (h : BufferUpdate m m') (hm : Memory.wf m = true) :
    Memory.wf m' = true := by
  cases h with
  | kept => exact hm
  | cleared => rfl
  | byteWritten addr v haddr => exact Memory.wf_write v hm haddr
  | blockWritten v => exact wf_memWrite v hm (by decide)

/-- A state that agrees in the buffer has kept it. -/
theorem BufferUpdate.of_agree {s t : State} (h : t.agree s .buf) : BufferUpdate s.buf t.buf := by
  rw [show t.buf = s.buf from h]
  exact .kept

theorem BufferUpdate.of_unlessHalted {rule : State → State} {s t : State} (h : unlessHalted rule s = .next t)
    (hrule : BufferUpdate s.buf (rule s).buf) : BufferUpdate s.buf t.buf := by
  obtain ⟨-, rfl⟩ | ⟨-, rfl⟩ := unlessHalted_cases h
  · exact hrule
  · exact .kept

/-- The commands that the table of 10_state.md R41 marks for BUF update it, every other one keeps it. -/
theorem exec_bufferUpdate {i : Instr} {s t : State} (h : exec i s = .next t) : BufferUpdate s.buf t.buf := by
  rcases exec_agree_or_writes (f := .buf) h nofun with hagree | hwrites
  · exact .of_agree hagree
  cases i with
  | init => cases h; exact .cleared
  | pushb byte =>
    rw [exec, execPushb] at h
    refine .of_unlessHalted h ?_
    rcases pushSlot_cases s with ⟨hlt, hslot⟩ | ⟨-, hslot⟩ <;> simp only [hslot]
    · exact .byteWritten _ byte (Nat.lt_of_succ_lt_succ hlt)
    · exact .kept
  | i2b =>
    rw [exec, execI2b] at h
    exact .of_unlessHalted h (.blockWritten _)
  | encblk =>
    rw [exec, execEncblk] at h
    refine .of_unlessHalted h ?_
    rcases withEncryptionKey_cases (fun s => (s.putBlock (s.encrypted s.blockInteger)).complete) s with
      ⟨-, he⟩ | ⟨-, he⟩ <;> rw [he]
    · exact .blockWritten _
    · exact .kept
  | decblk =>
    rw [exec, execDecblk] at h
    refine .of_unlessHalted h ?_
    rcases withDecryptionKey_cases (fun s => (s.putBlock (s.decrypted s.blockInteger)).complete) s with
      ⟨-, he⟩ | ⟨-, he⟩ | ⟨-, he⟩ <;> rw [he]
    · exact .blockWritten _
    · exact .kept
    · exact .kept
  | _ => simp [writesField] at hwrites

theorem step_bufferUpdate {s t : State} (h : step s = .next t) : BufferUpdate s.buf t.buf := by
  obtain ⟨_, -, rfl⟩ | ⟨_, moves, _, -, -, -, hexec⟩ | ⟨_, moves, _, -, -, -, hill⟩ | ⟨-, -, rfl⟩ := step_cases h
  · exact .cleared
  · exact exec_bufferUpdate (s := s.takeMove moves) hexec
  · exact .of_agree (s := s.takeMove moves) (executeIllegal_agree hill nofun)
  · exact .kept

/-- Settles O6: each of the four updates a step can make keeps the form. -/
theorem stepKeepsBufferCanonical : Obligations.StepKeepsBufferCanonical :=
  fun _ _ hwf hstep => (step_bufferUpdate hstep).keeps_wf hwf

/-! ## Cells at and above LEN (20_memory.md R66) -/

/-- The block integer is read from the cells below LEN. -/
theorem blockInteger_putBuf {s : State} {other : Memory}
    (hvalid : ∀ k, k < s.len.val → Memory.read other k = Memory.read s.buf k) :
    (s.putBuf other).blockInteger = s.blockInteger :=
  memRead_congr fun k hk => by rw [Nat.zero_add]; exact hvalid k hk

/-- Ten bytes written leave nothing of what a canonical buffer held. -/
theorem memWrite_block_eq {m m' : Memory} (v : Nat) (h : Memory.wf m = true) (h' : Memory.wf m' = true) :
    memWrite m 0 Config.blockBytes v = memWrite m' 0 Config.blockBytes v := by
  have hwf := wf_memWrite (addr := 0) (n := Config.blockBytes) v h (by decide)
  have hwf' := wf_memWrite (addr := 0) (n := Config.blockBytes) v h' (by decide)
  refine Memory.ext_of_wfFrom hwf hwf' fun a => ?_
  by_cases ha : a < Config.blockBytes
  · rw [read_memWrite_inside h (by decide) ha, read_memWrite_inside h' (by decide) ha]
  · rw [Memory.read_outside hwf (Nat.le_of_not_lt ha), Memory.read_outside hwf' (Nat.le_of_not_lt ha)]

/-- The checks of the keys do not look at the buffer. -/
theorem withEncryptionKey_putBuf (rule : State → State) (m : Memory) (s : State) :
    withEncryptionKey rule (s.putBuf m) =
      if s.encryptionKeyLoaded then rule (s.putBuf m) else raise .keyNotLoaded (s.putBuf m) := rfl

theorem withDecryptionKey_putBuf (rule : State → State) (m : Memory) (s : State) :
    withDecryptionKey rule (s.putBuf m) =
      if !s.addendLoaded then raise .keyNotLoaded (s.putBuf m)
      else if !s.inverseReady then raise .inverseNotReady (s.putBuf m)
      else rule (s.putBuf m) := rfl

/-- How the ends `t` and `u` of the command `i`, run with the buffers `m` and `other`, compare: they differ at most in
the buffer, and not even there once the whole block is written. -/
def SameButStale (i : Instr) (m other : Memory) (t u : State) : Prop :=
  u = { t with buf := u.buf } ∧
    (i ≠ .b2i → t.err = none → Memory.wf m = true → Memory.wf other = true → u.buf = t.buf)

section
variable {i : Instr} {s : State} {other : Memory}

/-- An end with ERR set is one that wrote no block. -/
theorem SameButStale.of_err {t : State} {c : Cause} (h : t.err = some c) :
    SameButStale i s.buf other t (t.putBuf other) :=
  ⟨rfl, fun _ hnone => absurd (h.symm.trans hnone) nofun⟩

theorem SameButStale.of_raise (hs : s.err = none) (c : Cause) :
    SameButStale i s.buf other (raise c s) (raise c (s.putBuf other)) :=
  .of_err (State.recordFault_err_running hs c)

theorem SameButStale.of_putBlock {v v' : Nat} (hv : v' = v) :
    SameButStale i s.buf other (s.putBlock v).complete ((s.putBuf other).putBlock v').complete := by
  subst hv
  exact ⟨rfl, fun _ _ hwf hother => memWrite_block_eq v' hother hwf⟩

variable {rule : State → State} (hrule : SameButStale i s.buf other (rule s) (rule (s.putBuf other)))
include hrule

theorem SameButStale.of_withEncryptionKey (hs : s.err = none) :
    SameButStale i s.buf other (withEncryptionKey rule s) (withEncryptionKey rule (s.putBuf other)) := by
  rw [withEncryptionKey_putBuf, withEncryptionKey]
  split_ifs
  · exact hrule
  · exact .of_raise hs _

theorem SameButStale.of_withDecryptionKey (hs : s.err = none) :
    SameButStale i s.buf other (withDecryptionKey rule s) (withDecryptionKey rule (s.putBuf other)) := by
  rw [withDecryptionKey_putBuf, withDecryptionKey]
  split_ifs
  · exact .of_raise hs _
  · exact .of_raise hs _
  · exact hrule

end

/-- A halted core refuses the command whatever the buffer holds (60_exceptions.md R184). -/
theorem SameButStale.of_unlessHalted {i : Instr} {s t : State} {other : Memory} {rule : State → State}
    (h : unlessHalted rule s = .next t)
    (hrule : s.err = none → SameButStale i s.buf other (rule s) (rule (s.putBuf other))) :
    ∃ u, unlessHalted rule (s.putBuf other) = .next u ∧ SameButStale i s.buf other t u := by
  obtain ⟨hnone, rfl⟩ | ⟨⟨first, hfirst⟩, rfl⟩ := unlessHalted_cases h
  · exact ⟨_, unlessHalted_running hnone, hrule hnone⟩
  · exact ⟨_, unlessHalted_halted hfirst, .of_err hfirst⟩

/-- Settles O41: the three commands take the block integer of the cells below LEN, and the two that write the buffer
write all ten cells. -/
theorem staleBytesHaveNoEffect : Obligations.StaleBytesHaveNoEffect := by
  intro i s t other hi hvalid hexec
  have hblock := blockInteger_putBuf hvalid
  simp only [List.mem_cons, List.not_mem_nil, or_false] at hi
  obtain rfl | rfl | rfl := hi
  · rw [exec, execB2i] at hexec ⊢
    refine SameButStale.of_unlessHalted (i := .b2i) hexec fun _ => ⟨?_, (absurd rfl ·)⟩
    rw [hblock]
    rfl
  · rw [exec, execEncblk] at hexec ⊢
    refine SameButStale.of_unlessHalted (i := .encblk) hexec fun hs => .of_withEncryptionKey ?_ hs
    exact .of_putBlock (congrArg s.encrypted hblock)
  · rw [exec, execDecblk] at hexec ⊢
    refine SameButStale.of_unlessHalted (i := .decblk) hexec fun hs => .of_withDecryptionKey ?_ hs
    exact .of_putBlock (congrArg s.decrypted hblock)

end Sys2Proof.Machine
end

section
/-! PROOFS. The encoding of the commands and the responses to them (30_encoding.md): decode and encode are inverse to
each other (R71 to R75), which words are illegal (R76), what the assembler rejects (R80), how many responses a word gets
and what DATA they carry (R78, R79), and how long a response stays on the port (R83). -/

namespace Sys2Proof

open Sys2Proof.Machine

/-! ## The fields of a word (30_encoding.md R71) -/

/-- The three fields are the whole word. -/
theorem fields_append (w : CommandWord) : opcField w ++ argField w ++ immField w = w := by
  simp only [opcField, argField, immField]
  rw [BitVec.extractLsb'_append_extractLsb'_eq_extractLsb' (by rfl),
    BitVec.extractLsb'_append_extractLsb'_eq_extractLsb' (by rfl), BitVec.extractLsb'_eq_self]

theorem opcField_toNat (w : CommandWord) : (opcField w).toNat = w.toNat / 2 ^ 88 := by
  rw [opcField, BitVec.extractLsb'_toNat, Nat.shiftRight_eq_div_pow, Nat.mod_eq_of_lt]
  omega

theorem argField_toNat (w : CommandWord) : (argField w).toNat = w.toNat / 2 ^ 80 % 256 := by
  rw [argField, BitVec.extractLsb'_toNat, Nat.shiftRight_eq_div_pow]

theorem immField_toNat (w : CommandWord) : (immField w).toNat = w.toNat % 2 ^ 80 := by
  rw [immField, BitVec.extractLsb'_toNat, Nat.shiftRight_zero]

/-! ## The opcode map and the formats (30_encoding.md R72, R74) -/

/-- The format takes its operand from ARG. -/
def Format.usesArg : Format → Bool
  | .fa _ => true
  | .f0 _ | .fi _ => false

/-- The format takes its operand from IMM. -/
def Format.usesImm : Format → Bool
  | .fi _ => true
  | .f0 _ | .fa _ => false

/-- The commands of the row have the OPC `opc`, and their operand in the field of their format. -/
def Format.EncodesTo (opc : Byte) : Format → Prop
  | .f0 command => opcodeOf command = opc ∧ argOf command = 0 ∧ immOf command = 0
  | .fa command => ∀ arg, opcodeOf (command arg) = opc ∧ argOf (command arg) = arg ∧ immOf (command arg) = 0
  | .fi command => ∀ imm, opcodeOf (command imm) = opc ∧ argOf (command imm) = 0 ∧ immOf (command imm) = imm

/-- The encoder has the rows of the opcode map. -/
theorem opcodeMap_encodesTo {opc : Byte} {format : Format} (h : opcodeMap opc = some format) :
    format.EncodesTo opc := by
  unfold opcodeMap at h
  split at h <;> cases h <;> simp [Format.EncodesTo, opcodeOf, argOf, immOf]

/-- Unassigned are all OPC values but the seventeen of R74. -/
theorem opcodeMap_eq_none_iff (opc : Byte) :
    opcodeMap opc = none ↔ opc.toNat ∉ [0x00, 0x01, 0x02, 0x10, 0x11, 0x12, 0x20, 0x21, 0x30, 0x31, 0x32, 0x33, 0x34,
      0x40, 0x41, 0x42, 0x43] := by
  unfold opcodeMap
  split <;> simp_all [BitVec.toNat_eq]

theorem opcodeMap_usesArg {opc : Byte} {format : Format} (h : opcodeMap opc = some format) :
    format.usesArg = true ↔ opc.toNat ∈ [0x02, 0x30, 0x31, 0x32] := by
  unfold opcodeMap at h
  split at h <;> cases h <;> decide

theorem opcodeMap_usesImm {opc : Byte} {format : Format} (h : opcodeMap opc = some format) :
    format.usesImm = true ↔ opc.toNat ∈ [0x10, 0x11, 0x12] := by
  unfold opcodeMap at h
  split at h <;> cases h <;> decide

/-- A command comes out of its fields only if the unused ones are zero, so its fields are those it came out of. -/
theorem fields_of_decodeFields {opc arg : Byte} {imm : Word} {format : Format} {i : Instr}
    (hf : format.EncodesTo opc) (h : decodeFields arg imm format = .ok i) :
    opcodeOf i = opc ∧ argOf i = arg ∧ immOf i = imm := by
  cases format with
  | f0 command =>
    simp only [decodeFields, ne_eq, ite_not] at h
    split_ifs at h with harg himm
    cases h
    rw [harg, himm]
    exact hf
  | fa command =>
    simp only [decodeFields, ne_eq, ite_not] at h
    split_ifs at h with himm
    cases h
    rw [himm]
    exact hf arg
  | fi command =>
    simp only [decodeFields, ne_eq, ite_not] at h
    split_ifs at h with harg
    cases h
    rw [harg]
    exact hf imm

/-- The fields are illegal exactly where one the format does not use is not zero (30_encoding.md R72, R76). -/
theorem decodeFields_illegal_iff (arg : Byte) (imm : Word) (format : Format) :
    (∃ why, decodeFields arg imm format = .error why) ↔
      (format.usesArg = false ∧ arg ≠ 0) ∨ (format.usesImm = false ∧ imm ≠ 0) := by
  cases format with
  | f0 command =>
    by_cases harg : arg = 0 <;> by_cases himm : imm = 0 <;>
      simp_all [decodeFields, Format.usesArg, Format.usesImm]
  | fa command => by_cases himm : imm = 0 <;> simp_all [decodeFields, Format.usesArg, Format.usesImm]
  | fi command => by_cases harg : arg = 0 <;> simp_all [decodeFields, Format.usesArg, Format.usesImm]

/-! ## The decoder and the encoder (30_encoding.md R75, R76) -/

theorem decode_of_assigned {w : CommandWord} {format : Format} (h : opcodeMap (opcField w) = some format) :
    decode w = decodeFields (argField w) (immField w) format := by
  simp only [decode, h]

theorem decode_of_unassigned {w : CommandWord} (h : opcodeMap (opcField w) = none) :
    decode w = .error .unassignedOpcode := by
  simp only [decode, h]

/-- Settles O17: the fields of the encoding read back as they were written, and the decoder takes the command from
them. -/
theorem decodeOfEncodeIsTheCommand : Obligations.DecodeOfEncodeIsTheCommand :=
  decode_encode

/-- Settles O18: the fields of the command are those of the word, and the three fields are the whole word. -/
theorem decodedWordIsTheEncoding : Obligations.DecodedWordIsTheEncoding := by
  intro w i h
  cases hmap : opcodeMap (opcField w) with
  | none => rw [decode_of_unassigned hmap] at h; cases h
  | some format =>
    rw [decode_of_assigned hmap] at h
    obtain ⟨hopc, harg, himm⟩ := fields_of_decodeFields (opcodeMap_encodesTo hmap) h
    rw [encode, hopc, harg, himm, fields_append]

/-- Settles O19: an unassigned OPC is illegal by the opcode map, an assigned one by the fields its format does not use;
the lists of the statement are the rows of the map by format. -/
theorem illegalWordsAreTheReservedOnes : Obligations.IllegalWordsAreTheReservedOnes := by
  intro w
  rw [← opcField_toNat, ← argField_toNat, ← immField_toNat, ← opcodeMap_eq_none_iff]
  cases hmap : opcodeMap (opcField w) with
  | none => simp [decode_of_unassigned hmap]
  | some format =>
    rw [decode_of_assigned hmap, decodeFields_illegal_iff, ← opcodeMap_usesArg hmap, ← opcodeMap_usesImm hmap]
    simp [BitVec.toNat_eq]

/-- Settles O20: each word is a literal, so the decoder computes its command. -/
theorem sampleWordsDecode : Obligations.SampleWordsDecode :=
  ⟨by rfl, by rfl, by rfl, by rfl, by rfl, by rfl⟩

/-! ## The assembler (30_encoding.md R80) -/

theorem expand_eq_none_iff (line : SourceLine) : expand line = none ↔ line.wellFormed = false := by
  simp [expand]

theorem expand_argOperand {line : SourceLine} {n : Nat} (h : line.wellFormed = fitsArg n) :
    expand line = none ↔ 255 < n := by
  simp [expand_eq_none_iff, h, fitsArg]

theorem expand_immOperand {line : SourceLine} {n : Nat} (h : line.wellFormed = fitsImm n) :
    expand line = none ↔ 2 ^ 80 ≤ n := by
  simp [expand_eq_none_iff, h, fitsImm]

/-- Settles O21: the check of each of the seven lines is that of its operand's field. -/
theorem assemblerRejectsOversizedOperands : Obligations.AssemblerRejectsOversizedOperands :=
  ⟨fun _ => expand_argOperand rfl, fun _ => expand_argOperand rfl, fun _ => expand_argOperand rfl,
    fun _ => expand_argOperand rfl, fun _ => expand_immOperand rfl, fun _ => expand_immOperand rfl,
    fun _ => expand_immOperand rfl, rfl, rfl, rfl⟩

end Sys2Proof

namespace Sys2Proof.Machine

/-! ## The response to a word (30_encoding.md R70, R78) -/

/-- `t` follows `s` by exactly one response, `r`, with no move of the host taken. -/
def RespondsWith (r : Response) (s t : State) : Prop :=
  t.rsps = r :: s.rsps ∧ t.moves = s.moves ∧ t.resetDone = s.resetDone

theorem RespondsWith.of_respond (code : Code) (data : Data) (s : State) :
    RespondsWith ⟨code, data⟩ s (s.respond code data) := ⟨rfl, rfl, rfl⟩

theorem RespondsWith.of_raise (c : Cause) (s : State) : RespondsWith ⟨.raised c, 0⟩ s (raise c s) := ⟨rfl, rfl, rfl⟩

theorem RespondsWith.of_refuseHalted (s : State) : RespondsWith ⟨.halted, 0⟩ s (refuseHalted s) := ⟨rfl, rfl, rfl⟩

/-- Refused, faulted or completed, a command responds once. -/
theorem ExecAnswers.respondsWith {i : Instr} {s t : State} (h : ExecAnswers i s t) : ∃ r, RespondsWith r s t := by
  obtain ⟨-, -, rfl⟩ | ⟨-, ⟨c, rfl⟩ | ⟨-, -, -, rfl⟩ | ⟨d, hrsps, hmoves, hreset, -⟩⟩ := h
  · exact ⟨_, .of_refuseHalted s⟩
  · exact ⟨_, .of_raise c s⟩
  · exact ⟨_, .of_raise .notInvertible (s.putG _)⟩
  · exact ⟨_, hrsps, hmoves, hreset⟩

/-- Every word in every state is executed to a next state, with exactly one response (60_exceptions.md R186). -/
theorem executeWord_respondsWith (w : CommandWord) (s : State) :
    ∃ t r, executeWord exec w s = .next t ∧ RespondsWith r s t := by
  simp only [executeWord]
  cases decode w with
  | ok i =>
    obtain ⟨t, hexec, hanswers⟩ := exec_answers i s
    obtain ⟨r, hr⟩ := hanswers.respondsWith
    exact ⟨t, r, hexec, hr⟩
  | error why =>
    obtain ⟨-, hill⟩ | ⟨-, hill⟩ := executeIllegal_cases s
    · exact ⟨_, _, hill, .of_raise _ s⟩
    · exact ⟨_, _, hill, .of_refuseHalted s⟩

/-- After a first reset a waiting word is taken and executed (30_encoding.md R70). -/
theorem step_of_command {s : State} {w : CommandWord} {moves : List HostMove} (hreset : s.resetDone = true)
    (hmoves : s.moves = .command w :: moves) : step s = executeWord exec w (s.takeMove moves) := by
  simp only [step, nextMove, hmoves, hreset, if_true]

/-- Settles O7: the word is taken, and executing it is executing the command it decodes to. -/
theorem stepRunsDecodedCommand : Obligations.StepRunsDecodedCommand := by
  intro s w moves i hreset hmoves hdec
  rw [step_of_command hreset hmoves, executeWord, hdec]
  rfl

/-- Settles O11: the word is taken, and executing it responds once. -/
theorem everyWordGetsOneResponse : Obligations.EveryWordGetsOneResponse := by
  intro s w moves hreset hmoves
  rw [step_of_command hreset hmoves]
  obtain ⟨t, r, hword, hrsps, hkept, hdone⟩ := executeWord_respondsWith w (s.takeMove moves)
  exact ⟨t, r, hword, hrsps, hkept, hdone.trans hreset⟩

/-! ## The DATA of a response (30_encoding.md R78, R79) -/

/-- `t` follows `s` by one response whose DATA is 0. -/
def RespondsZero (s t : State) : Prop := ∃ code, t.rsps = ⟨code, 0⟩ :: s.rsps

section Zero
variable {s : State} {rule : State → State}

theorem RespondsZero.of_raise (c : Cause) : RespondsZero s (raise c s) := ⟨_, rfl⟩

theorem RespondsZero.of_unlessHalted {t : State} (h : unlessHalted rule s = .next t)
    (hrule : RespondsZero s (rule s)) : RespondsZero s t := by
  obtain ⟨-, rfl⟩ | ⟨-, rfl⟩ := unlessHalted_cases h
  · exact hrule
  · exact ⟨_, rfl⟩

theorem RespondsZero.of_withMultiplier (hrule : RespondsZero s (rule s)) :
    RespondsZero s (withMultiplier rule s) := by
  rcases withMultiplier_cases rule s with ⟨-, he⟩ | ⟨-, he⟩ <;> rw [he]
  · exact hrule
  · exact .of_raise _

theorem RespondsZero.of_withEncryptionKey (hrule : RespondsZero s (rule s)) :
    RespondsZero s (withEncryptionKey rule s) := by
  rcases withEncryptionKey_cases rule s with ⟨-, he⟩ | ⟨-, he⟩ <;> rw [he]
  · exact hrule
  · exact .of_raise _

theorem RespondsZero.of_withDecryptionKey (hrule : RespondsZero s (rule s)) :
    RespondsZero s (withDecryptionKey rule s) := by
  rcases withDecryptionKey_cases rule s with ⟨-, he⟩ | ⟨-, he⟩ | ⟨-, he⟩ <;> rw [he]
  · exact hrule
  · exact .of_raise _
  · exact .of_raise _

theorem RespondsZero.of_takeInverse (gp : Nat × Int) : RespondsZero s (takeInverse gp s) := by
  rcases takeInverse_cases gp s with ⟨-, he⟩ | ⟨-, he⟩ <;> rw [he] <;> exact ⟨_, rfl⟩

end Zero

/-- RD answers with the register its ARG names, or with DATA 0 (43_system.md R172). -/
theorem exec_rd_data {reg : Byte} {s t : State} (h : exec (.rd reg) s = .next t) :
    (∃ value, registerView reg s = some value ∧ t.rsps = ⟨.completed, value⟩ :: s.rsps) ∨ RespondsZero s t := by
  rw [exec, execRd, evenHalted_eq] at h
  cases h
  rcases registerView_cases reg s with ⟨-, value, hv⟩ | ⟨-, hv⟩ <;> simp only [hv]
  · exact .inl ⟨value, rfl, rfl⟩
  · exact .inr (.of_raise _)

/-- RDB answers with the byte of a cell below LEN, or with DATA 0 (41_converter.md R127). -/
theorem exec_rdb_data {index : Byte} {s t : State} (h : exec (.rdb index) s = .next t) :
    (index.toNat < s.len.val ∧
        t.rsps = ⟨.completed, (Memory.read s.buf index.toNat).setWidth 96⟩ :: s.rsps) ∨ RespondsZero s t := by
  rw [exec, execRdb] at h
  obtain ⟨-, rfl⟩ | ⟨-, rfl⟩ := unlessHalted_cases h
  · rcases bufferIndex_cases index s with ⟨hlt, hidx⟩ | ⟨-, hidx⟩ <;> simp only [hidx]
    · exact .inl ⟨hlt, rfl⟩
    · exact .inr (.of_raise _)
  · exact .inr ⟨_, rfl⟩

/-- Every command but the two reads answers with DATA 0, whether it completes or not. -/
theorem exec_respondsZero {i : Instr} {s t : State} (hrd : ∀ reg, i ≠ .rd reg) (hrdb : ∀ index, i ≠ .rdb index)
    (h : exec i s = .next t) : RespondsZero s t := by
  cases i with
  | rd reg => exact absurd rfl (hrd reg)
  | rdb index => exact absurd rfl (hrdb index)
  | nop | init => cases h; exact ⟨_, rfl⟩
  | lda | ldb | ldx | b2i | i2b =>
    simp only [exec, execLda, execLdb, execLdx, execB2i, execI2b] at h
    exact .of_unlessHalted h ⟨_, rfl⟩
  | gcd =>
    rw [exec, execGcd] at h
    exact .of_unlessHalted h (.of_withMultiplier ⟨_, rfl⟩)
  | modinv =>
    rw [exec, execModinv] at h
    exact .of_unlessHalted h (.of_withMultiplier (.of_takeInverse _))
  | setlen n =>
    rw [exec, execSetlen] at h
    refine .of_unlessHalted h ?_
    rcases blockLength_cases n with ⟨_, hn⟩ | ⟨-, hn⟩ <;> simp only [hn] <;> exact ⟨_, rfl⟩
  | pushb byte =>
    rw [exec, execPushb] at h
    refine .of_unlessHalted h ?_
    rcases pushSlot_cases s with ⟨_, hslot⟩ | ⟨-, hslot⟩ <;> simp only [hslot] <;> exact ⟨_, rfl⟩
  | enc | encblk =>
    simp only [exec, execEnc, execEncblk] at h
    exact .of_unlessHalted h (.of_withEncryptionKey ⟨_, rfl⟩)
  | dec | decblk =>
    simp only [exec, execDec, execDecblk] at h
    exact .of_unlessHalted h (.of_withDecryptionKey ⟨_, rfl⟩)

/-- A response read back from where DATA 0 was answered. -/
theorem RespondsZero.data_eq_zero {s t : State} {code : Code} {d : Data} (h : RespondsZero s t)
    (hrsps : t.rsps = ⟨code, d⟩ :: s.rsps) : d = 0 := by
  obtain ⟨_, hzero⟩ := h
  rw [hzero] at hrsps
  cases hrsps
  rfl

/-- Settles O57: DATA other than 0 shuts out every answer with DATA 0, which leaves the two reads that complete. -/
theorem onlyReadsReturnData : Obligations.OnlyReadsReturnData := by
  intro i s t code d hexec hrsps hd
  have hnonzero : ¬ RespondsZero s t := fun hzero => hd (hzero.data_eq_zero hrsps)
  by_cases hrd : ∃ reg, i = .rd reg
  · obtain ⟨reg, rfl⟩ := hrd
    obtain ⟨value, hvalue, hread⟩ := (exec_rd_data hexec).resolve_right hnonzero
    rw [hread] at hrsps
    cases hrsps
    exact ⟨rfl, .inl ⟨reg, rfl, hvalue⟩⟩
  by_cases hrdb : ∃ index, i = .rdb index
  · obtain ⟨index, rfl⟩ := hrdb
    obtain ⟨hlt, hread⟩ := (exec_rdb_data hexec).resolve_right hnonzero
    rw [hread] at hrsps
    cases hrsps
    exact ⟨rfl, .inr ⟨index, rfl, hlt, BitVec.toNat_setWidth_of_le (by decide)⟩⟩
  · exact absurd (exec_respondsZero (fun reg h => hrd ⟨reg, h⟩) (fun index h => hrdb ⟨index, h⟩) hexec) hnonzero

/-! ## The response on the port (30_encoding.md R83) -/

/-- Two runs of edges one after the other. -/
theorem edges_append {first later : List Pins} {s t : PortState} (h : edges first s = .next t) :
    edges (first ++ later) s = edges later t := by
  induction first generalizing s with
  | nil => cases h; rfl
  | cons pins first ih =>
    simp only [List.cons_append, edges] at h ⊢
    cases hedge : edge pins s with
    | next u => rw [hedge] at h; exact ih h
    | fault f => cases f
    | refused r => rw [hedge] at h; cases h

section Responding
variable {core : State} {pins : Pins} (hreset : core.resetDone = true) (hrst : pins.rst = false) (r : Response)
include hreset hrst

/-- An edge at which the response is not taken changes nothing. -/
theorem edge_responding_waits (hready : pins.rspReady = false) :
    edge pins ⟨core, .responding r⟩ = .next ⟨core, .responding r⟩ := by
  simp [edge, runEdge, hreset, hrst, hready]

/-- An edge at which the response is taken transfers it and leaves the core idle. -/
theorem edge_responding_transfers (hready : pins.rspReady = true) :
    edge pins ⟨core, .responding r⟩ = .next ⟨{ core with rsps := r :: core.rsps }, .idle⟩ := by
  simp [edge, runEdge, hreset, hrst, hready]

end Responding

theorem edges_responding_waits {core : State} (hreset : core.resetDone = true) (r : Response) {waiting : List Pins}
    (hwait : ∀ pins ∈ waiting, pins.rst = false ∧ pins.rspReady = false) :
    edges waiting ⟨core, .responding r⟩ = .next ⟨core, .responding r⟩ := by
  induction waiting with
  | nil => rfl
  | cons pins waiting ih =>
    obtain ⟨⟨hrst, hready⟩, hlater⟩ := List.forall_mem_cons.1 hwait
    rw [edges, edge_responding_waits hreset hrst r hready]
    exact ih hlater

/-- Settles O15: each edge that does not take the response keeps it, and the last one transfers it to an idle core. -/
theorem responseStableUntilTaken : Obligations.ResponseStableUntilTaken := by
  intro core r waiting last hreset hwait hrst hready
  have hstable := edges_responding_waits hreset r hwait
  refine ⟨hstable, ⟨{ core with rsps := r :: core.rsps }, .idle⟩, ?_, rfl, rfl, rfl⟩
  rw [edges_append hstable, edges, edge_responding_transfers hreset hrst r hready]
  rfl

end Sys2Proof.Machine
end

section
/-! PROOFS. The modular arithmetic (40_modular_arithmetic.md): `normalize` and the two Euclidean loops in the terms of
the library (R92 to R98, R104), and what GCD and MODINV do on a running core (R100 to R103). -/

namespace Sys2Proof.Machine

/-! ## normalize (R94) -/

/-- From 80 bits up, two's complement keeps an integer's remainder modulo `2^80` in its low 80 bits. -/
theorem ofInt_toNat_mod_two_pow_80 {n : Nat} (hn : 80 ≤ n) (x : Int) :
    (((BitVec.ofInt n x).toNat % 2 ^ 80 : Nat) : Int) = x % 2 ^ 80 := by
  have hpos : (0 : Int) < (2 ^ n : Nat) := by positivity
  have hdvd : (2 ^ 80 : Int) ∣ (2 ^ n : Nat) := by exact_mod_cast pow_dvd_pow 2 hn
  rw [BitVec.toNat_ofInt, Int.natCast_mod, Int.toNat_of_nonneg (Int.emod_nonneg x hpos.ne')]
  exact Int.emod_emod_of_dvd x hdvd

/-- Settles O34: floored and Euclidean remainder agree for `m` from 1, and by `2^80` it is the low 80 bits. -/
theorem normalizeIsFlooredRemainder : Obligations.NormalizeIsFlooredRemainder := by
  intro x m hm
  refine ⟨?nonneg, ?lt, ?floored, fun n hn => ?low⟩
  case nonneg => exact Int.fmod_nonneg_of_pos x hm
  case lt => exact Int.fmod_lt_of_pos x hm
  case floored => rw [normalize, Int.fmod_def, mul_comm]
  case low =>
    rw [normalize_eq_emod (Int.natCast_nonneg _), modulus_eq, ofInt_toNat_mod_two_pow_80 hn x]
    rfl

/-! ## The gcd with M (R98) -/

/-- Below `2^n` the gcd with `2^n` is the largest power of two that divides `a`. -/
theorem gcd_two_pow_eq_largest_dvd {a n : Nat} (ha : a ≠ 0) (hlt : a < 2 ^ n) :
    ∃ v, v < n ∧ 2 ^ v ∣ a ∧ ¬ 2 ^ (v + 1) ∣ a ∧ Nat.gcd a (2 ^ n) = 2 ^ v := by
  obtain ⟨v, -, hgcd⟩ := exists_gcd_two_pow_eq a n
  have hdvd : 2 ^ v ∣ a := hgcd ▸ Nat.gcd_dvd_left a (2 ^ n)
  have hv : v < n :=
    (Nat.pow_lt_pow_iff_right one_lt_two).1 ((Nat.le_of_dvd (Nat.pos_of_ne_zero ha) hdvd).trans_lt hlt)
  refine ⟨v, hv, hdvd, fun hnext => ?_, hgcd⟩
  have hle : 2 ^ (v + 1) ∣ 2 ^ v := hgcd ▸ Nat.dvd_gcd hnext (pow_dvd_pow 2 hv)
  exact absurd ((Nat.pow_dvd_pow_iff_le_right one_lt_two).1 hle) (Nat.not_succ_le_self v)

/-- Settles O28: the loop of `gcd` computes the gcd, and with `2^80` that is a power of two. -/
theorem gcdClosedForm : Obligations.GcdClosedForm := by
  simp only [Obligations.GcdClosedForm, gcdOf_eq, modulus_eq]
  exact ⟨Nat.gcd_zero_left _, fun a hlt =>
    ⟨fun ha => gcd_two_pow_eq_largest_dvd ha hlt, gcd_two_pow_eq_one_iff (by decide)⟩⟩

/-! ## The coefficient of `xgcd` (R92, R93, R97) -/

/-- Settles O32: the loop's first result is the gcd, and its invariant gives the coefficient and the bound on it. -/
theorem xgcdGivesBezoutCoefficient : Obligations.XgcdGivesBezoutCoefficient := by
  intro a m hlt
  rw [xgcd_fst]
  exact ⟨rfl, xgcd_bezout hlt, fun _ => two_mul_gcd_mul_xgcd_le hlt⟩

/-- Two inverses of the same number are equal modulo `m`: each is the product of both with it. -/
theorem modEq_of_mul_modEq_one {a p q m : Int} (hp : a * p ≡ 1 [ZMOD m]) (hq : a * q ≡ 1 [ZMOD m]) :
    p ≡ q [ZMOD m] :=
  calc p ≡ a * q * p [ZMOD m] := by simpa using (hq.mul_right p).symm
    _ = a * p * q := mul_right_comm a q p
    _ ≡ q [ZMOD m] := by simpa using hp.mul_right q

/-- The reduction of `p` by M and `p` itself have the same low 80 bits (R94, R104). -/
theorem ofNat_normalizeM (p : Int) : BitVec.ofNat 80 (normalizeM p) = BitVec.ofInt 80 p := by
  refine BitVec.eq_of_toNat_eq ?_
  have hlow := ofInt_toNat_mod_two_pow_80 le_rfl p
  rw [Nat.mod_eq_of_lt (BitVec.isLt _), ← normalizeM_cast] at hlow
  rw [BitVec.toNat_ofNat, Nat.mod_eq_of_lt (normalizeM_lt p)]
  exact_mod_cast hlow.symm

/-- Settles O33: the coefficient is a centred inverse, inverses agree modulo `2^80`, and each of the two ranges holds
one number of a remainder. -/
theorem xgcdOfOddIsCentredInverse : Obligations.XgcdOfOddIsCentredInverse := by
  intro a hlt hodd
  rw [modulus_eq]
  have hinv := mul_xgcd_emod hlt hodd
  have hcentred := xgcd_natAbs_lt hlt hodd
  have hunique : ∀ q : Int, a * q % 2 ^ 80 = 1 → q % 2 ^ 80 = (xgcd a (2 ^ 80)).2 % 2 ^ 80 :=
    fun q hq => modEq_of_mul_modEq_one hq hinv
  generalize (xgcd a (2 ^ 80)).2 = p at hinv hcentred hunique ⊢
  have hred := normalizeM_cast p
  refine ⟨⟨by omega, by omega, hinv⟩, fun q hlow hhigh hq => ?centred, ?sign, ?reading, fun y hy hmul => ?reduced⟩
  case centred =>
    have := hunique q hq
    omega
  case sign => omega
  case reading =>
    rw [ofNat_normalizeM]
    exact BitVec.toInt_ofInt_eq_self (by decide) (by omega) (by omega)
  case reduced =>
    have := hunique y (by exact_mod_cast hmul)
    omega

/-! ## GCD and MODINV on a running core (R100 to R103) -/

section Engine
variable {s : State} (herr : s.err = none)

theorem withMultiplier_loaded {rule : State → State} (hav : s.av = true) : withMultiplier rule s = rule s :=
  if_pos hav

include herr

/-- Without a multiplier both commands raise KeyNotLoaded, which writes ERR alone (60_exceptions.md R183, R192). -/
theorem withMultiplier_missing {rule : State → State} (hav : s.av = false) :
    withMultiplier rule s =
      { s with err := some .keyNotLoaded, rsps := ⟨.raised .keyNotLoaded, 0⟩ :: s.rsps } :=
  (if_neg (Bool.eq_false_iff.1 hav)).trans (raise_running herr .keyNotLoaded)

theorem exec_gcd_running (hav : s.av = true) :
    exec .gcd s = .next (s.putG (Nat.gcd s.a.toNat (2 ^ 80))).complete := by
  rw [exec, execGcd, unlessHalted_running herr, withMultiplier_loaded hav, gcdOf_eq, modulus_eq]

theorem exec_modinv_running (hav : s.av = true) :
    exec .modinv s = .next (takeInverse (xgcd s.a.toNat (2 ^ 80)) s) := by
  rw [exec, execModinv, unlessHalted_running herr, withMultiplier_loaded hav, modulus_eq]

end Engine

/-- MODINV completes exactly on an odd multiplier (R98, R102). -/
theorem takeInverse_odd {s : State} (hodd : s.a.toNat % 2 = 1) :
    takeInverse (xgcd s.a.toNat (2 ^ 80)) s = ((s.putG 1).putInverse (xgcd s.a.toNat (2 ^ 80)).2).complete := by
  obtain ⟨-, h⟩ | ⟨hne, -⟩ := takeInverse_cases (xgcd s.a.toNat (2 ^ 80)) s
  · exact h
  · rw [xgcd_fst, Ne, gcd_two_pow_eq_one_iff (by decide)] at hne
    exact absurd hodd hne

/-- On an even multiplier MODINV raises NotInvertible with the gcd in G (R98, R103). -/
theorem takeInverse_even {s : State} (heven : s.a.toNat % 2 = 0) :
    takeInverse (xgcd s.a.toNat (2 ^ 80)) s = raise .notInvertible (s.putG (Nat.gcd s.a.toNat (2 ^ 80))) := by
  rw [← xgcd_fst]
  obtain ⟨hone, -⟩ | ⟨-, h⟩ := takeInverse_cases (xgcd s.a.toNat (2 ^ 80)) s
  · rw [xgcd_fst, gcd_two_pow_eq_one_iff (by decide)] at hone
    omega
  · exact h

/-- No inverse is held of an even multiplier (10_state.md R38). -/
theorem State.Inv.noInverse_of_even {s : State} (hs : s.Inv) (heven : s.a.toNat % 2 = 0) :
    s.inva = 0 ∧ s.p = 0 ∧ s.invv = false := by
  obtain ⟨-, hinv, hnoinv, -⟩ := hs
  cases hinvv : s.invv with
  | true =>
    obtain ⟨-, hodd, -⟩ := hinv hinvv
    omega
  | false =>
    obtain ⟨hinva, hp⟩ := hnoinv hinvv
    exact ⟨hinva, hp, rfl⟩

/-- Settles O27: a loaded A completes with the gcd in G, and no multiplier raises. -/
theorem gcdWritesGreatestCommonDivisor : Obligations.GcdWritesGreatestCommonDivisor := by
  refine ⟨rfl, fun s herr => ⟨fun hav => ?loaded, fun hav => ?missing⟩⟩
  case loaded => rw [exec_gcd_running herr hav]; rfl
  case missing => rw [exec, execGcd, unlessHalted_running herr, withMultiplier_missing herr hav]

/-- Settles O31: AV is tested before the loop is run. -/
theorem modinvNeedsMultiplier : Obligations.ModinvNeedsMultiplier := by
  intro s herr hav
  rw [exec, execModinv, unlessHalted_running herr, withMultiplier_missing herr hav]

/-- Settles O29: an odd A completes, and the inverse it leaves is a good one. -/
theorem modinvOfOddMultiplier : Obligations.ModinvOfOddMultiplier := by
  intro s herr hav hodd
  obtain ⟨-, -, -, hmul, hlow, hhigh, hred⟩ := inverseGood_putInverse_xgcd hav hodd
  refine ⟨((s.putG 1).putInverse (xgcd s.a.toNat (2 ^ 80)).2).complete, ?completes, rfl, hmul, hlow, hhigh, hred⟩
  rw [exec_modinv_running herr hav, takeInverse_odd hodd]

/-- Settles O30: an even A raises with the gcd in G, a power of two other than 1, and no inverse was held before. -/
theorem modinvOfEvenMultiplier : Obligations.ModinvOfEvenMultiplier := by
  intro s herr hav heven
  obtain ⟨k, hk, hgcd⟩ := exists_gcd_two_pow_eq s.a.toNat 80
  have hpos : k ≠ 0 := by
    rintro rfl
    have := (gcd_two_pow_eq_one_iff (by decide)).1 hgcd
    omega
  refine ⟨{ s.putG (Nat.gcd s.a.toNat (2 ^ 80)) with
      err := some .notInvertible, rsps := ⟨.raised .notInvertible, 0⟩ :: s.rsps }, ?raises, rfl,
    ⟨k, Nat.one_le_iff_ne_zero.2 hpos, hk, (putG_gcd_toNat s _).trans hgcd⟩,
    fun hs => hs.noInverse_of_even heven⟩
  rw [exec_modinv_running herr hav, takeInverse_even heven, raise_running (s := s.putG _) herr]
  rfl

end Sys2Proof.Machine
end

section
/-! PROOFS. The converter (41_converter.md): the two conversions as little-endian base-256 digits (R121 to R123), the
buffer as such digits, and what SETLEN, PUSHB, RDB, B2I, I2B and the expansion of LDBLK do on a running core (R124 to
R129). -/

namespace Sys2Proof.Machine

/-! ## The conversions (R121 to R123) -/

theorem blockToIntegerFrom_succ (i : Nat) (bytes : List Byte) :
    blockToIntegerFrom (i + 1) bytes = 256 * blockToIntegerFrom i bytes := by
  induction bytes generalizing i with
  | nil => rfl
  | cons byte bytes ih =>
    simp only [blockToIntegerFrom, weight_eq, ih (i + 1)]
    ring

@[simp] theorem blockToInteger_nil : blockToInteger [] = 0 := rfl

/-- The first byte is the lowest digit. -/
theorem blockToInteger_cons (byte : Byte) (bytes : List Byte) :
    blockToInteger (byte :: bytes) = byte.toNat + 256 * blockToInteger bytes := by
  simp [blockToInteger, blockToIntegerFrom, blockToIntegerFrom_succ]

/-- A byte after the others is the highest digit. -/
theorem blockToInteger_append_singleton (bytes : List Byte) (last : Byte) :
    blockToInteger (bytes ++ [last]) = blockToInteger bytes + last.toNat * 256 ^ bytes.length := by
  induction bytes with
  | nil => simp [blockToInteger_cons]
  | cons byte bytes ih =>
    simp only [List.cons_append, blockToInteger_cons, ih, List.length_cons]
    ring

/-- The bytes of a value by their places (R122). -/
theorem integerDigits_eq_map (n v : Nat) :
    integerDigits n v = (List.range n).map fun i => BitVec.ofNat 8 (v / 256 ^ i) := by
  induction n generalizing v with
  | zero => rfl
  | succ n ih =>
    have hlow : BitVec.ofNat 8 (v % 256) = BitVec.ofNat 8 v := BitVec.eq_of_toNat_eq (by simp)
    simp [integerDigits, ih, Config.radix, hlow, List.range_succ_eq_map, Nat.div_div_eq_div_mul, pow_succ']

theorem integerDigits_take {k n : Nat} (h : k ≤ n) (v : Nat) : (integerDigits n v).take k = integerDigits k v := by
  rw [integerDigits_eq_map, integerDigits_eq_map, ← List.map_take, List.take_range, Nat.min_eq_left h]

theorem blockToInteger_integerDigits (n v : Nat) : blockToInteger (integerDigits n v) = v % 256 ^ n := by
  induction n generalizing v with
  | zero => simp [integerDigits, Nat.mod_one]
  | succ n ih =>
    rw [integerDigits, blockToInteger_cons, ih, Config.radix, pow_succ', Nat.mod_mul, BitVec.toNat_ofNat]
    omega

/-- The bytes of a block's integer are the block, and zeros above it. -/
theorem integerDigits_blockToInteger {block : List Byte} {n : Nat} (h : block.length ≤ n) :
    integerDigits n (blockToInteger block) = block ++ List.replicate (n - block.length) 0 := by
  induction block generalizing n with
  | nil => simp [integerDigits_eq_map, List.map_const']
  | cons byte block ih =>
    obtain ⟨n, rfl⟩ : ∃ k, n = k + 1 := Nat.exists_eq_add_one_of_ne_zero (Nat.ne_zero_of_lt h)
    have hlow : (byte.toNat + 256 * blockToInteger block) % 256 = byte.toNat := by omega
    have hhigh : (byte.toNat + 256 * blockToInteger block) / 256 = blockToInteger block := by omega
    rw [blockToInteger_cons, integerDigits, Config.radix, hlow, hhigh, ih (Nat.le_of_succ_le_succ h)]
    simp

/-- The `n` lowest bytes do not depend on what lies above them. -/
theorem integerDigits_mod (n v : Nat) : integerDigits n (v % 256 ^ n) = integerDigits n v := by
  rw [← blockToInteger_integerDigits, integerDigits_blockToInteger (integerDigits_length n v).le, integerDigits_length]
  simp

/-- Settles O40: the conversions are inverse to each other on ten digits, a shorter block is filled up with zeros, and
the lowest bytes are those of the remainder. -/
theorem converterLaws : Obligations.ConverterLaws := by
  refine ⟨fun v hv => ?value, fun block hlen => ?full, fun block hlen => ?short, fun v n _ hn => ?lowest⟩
  case value =>
    rw [integerToBlock, blockToInteger_integerDigits]
    exact Nat.mod_eq_of_lt hv
  case full =>
    refine (integerDigits_blockToInteger hlen.le).trans ?_
    rw [hlen]
    exact List.append_nil block
  case short => exact integerDigits_blockToInteger hlen.le
  case lowest =>
    simp only [integerToBlock, integerDigits_take (n := Config.blockBytes) hn, integerDigits_mod,
      blockToInteger_integerDigits, and_self]

/-! ## The buffer as digits (R121, R122) -/

theorem memRead_eq_sum (m : Memory) (n : Nat) :
    memRead m 0 n = ∑ i ∈ Finset.range n, (Memory.read m i).toNat * 256 ^ i := by
  induction n with
  | zero => rfl
  | succ n ih => rw [memRead, ih, Finset.sum_range_succ, Nat.zero_add, weight_eq]

theorem memRead_eq_blockToInteger (m : Memory) (n : Nat) :
    memRead m 0 n = blockToInteger ((List.range n).map (Memory.read m)) := by
  induction n with
  | zero => rfl
  | succ n ih =>
    rw [memRead, ih, List.range_succ, List.map_append, List.map_singleton, blockToInteger_append_singleton,
      List.length_map, List.length_range, Nat.zero_add, weight_eq]

/-- The block integer of at most ten bytes fits X. -/
theorem State.blockInteger_lt (s : State) : s.blockInteger < 2 ^ 80 :=
  calc s.blockInteger < 256 ^ s.len.val := memRead_lt s.buf 0 s.len.val
    _ ≤ 256 ^ 10 := Nat.pow_le_pow_right (by decide) (Nat.le_of_lt_succ s.len.isLt)
    _ = 2 ^ 80 := by norm_num

/-- Byte `i` of an 80-bit value is its bits `8i+7` to `8i`. -/
theorem ofNat_div_eq_extractLsb' (v : Word) (i : Nat) :
    BitVec.ofNat 8 (v.toNat / 256 ^ i) = v.extractLsb' (8 * i) 8 := by
  rw [BitVec.extractLsb', Nat.shiftRight_eq_div_pow, pow_mul]
  rfl

/-! ## The words of the commands (30_encoding.md R71) -/

theorem encode_toNat (i : Instr) :
    (encode i).toNat = (opcodeOf i).toNat * 2 ^ 88 + (argOf i).toNat * 2 ^ 80 + (immOf i).toNat := by
  obtain ⟨hopc, harg, himm⟩ : Laws.EncodedFields.Statement i := Laws.EncodedFields.fields_of_append ..
  rw [← hopc, ← harg, ← himm, opcField_toNat, argField_toNat, immField_toNat]
  omega

/-- The word of a command that takes its operand from ARG alone. -/
theorem encode_toNat_of_imm_zero {i : Instr} (h : immOf i = 0) :
    (encode i).toNat = (opcodeOf i).toNat * 2 ^ 88 + (argOf i).toNat * 2 ^ 80 := by
  rw [encode_toNat, h, BitVec.ofNat_eq_ofNat, BitVec.toNat_zero, Nat.add_zero]

/-! ## The commands on a running core (R124 to R129) -/

/-- The core after a PUSHB that found room (R125). -/
def State.pushed (byte : Byte) (s : State) (h : s.len.val + 1 < 11) : State :=
  ((s.putBuf (Memory.write s.buf s.len.val byte)).putLen ⟨s.len.val + 1, h⟩).complete

@[simp] theorem State.pushed_len (byte : Byte) (s : State) (h : s.len.val + 1 < 11) :
    (s.pushed byte h).len = ⟨s.len.val + 1, h⟩ := rfl

@[simp] theorem State.pushed_buf (byte : Byte) (s : State) (h : s.len.val + 1 < 11) :
    (s.pushed byte h).buf = Memory.write s.buf s.len.val byte := rfl

section Running
variable {s : State} (herr : s.err = none)
include herr

theorem exec_setlen_running {n : Byte} (h : n.toNat < 11) :
    exec (.setlen n) s = .next (s.putLen ⟨n.toNat, h⟩).complete := by
  rw [exec, execSetlen, unlessHalted_running herr, blockLength, dif_pos h]

theorem exec_setlen_badLength {n : Byte} (h : 10 < n.toNat) : exec (.setlen n) s = .next (raise .badLength s) := by
  rw [exec, execSetlen, unlessHalted_running herr, blockLength, dif_neg (Nat.not_lt.2 h)]

theorem exec_pushb_running (byte : Byte) (h : s.len.val + 1 < 11) :
    exec (.pushb byte) s = .next (s.pushed byte h) := by
  rw [exec, execPushb, unlessHalted_running herr, pushSlot, dif_pos h]
  rfl

theorem exec_pushb_full (byte : Byte) (h : s.len.val = 10) :
    exec (.pushb byte) s = .next (raise .blockOverflow s) := by
  rw [exec, execPushb, unlessHalted_running herr, pushSlot, dif_neg (by omega)]

theorem exec_rdb_running {index : Byte} (h : index.toNat < s.len.val) :
    exec (.rdb index) s = .next (s.respond .completed ((Memory.read s.buf index.toNat).setWidth 96)) := by
  rw [exec, execRdb, unlessHalted_running herr, bufferIndex, if_pos h]

theorem exec_rdb_badIndex {index : Byte} (h : s.len.val ≤ index.toNat) :
    exec (.rdb index) s = .next (raise .badIndex s) := by
  rw [exec, execRdb, unlessHalted_running herr, bufferIndex, if_neg (Nat.not_lt.2 h)]

theorem exec_b2i_running : exec .b2i s = .next (s.putX (BitVec.ofNat 80 s.blockInteger)).complete := by
  rw [exec, execB2i, unlessHalted_running herr]

theorem exec_i2b_running :
    exec .i2b s = .next (s.putBuf (memWrite s.buf 0 Config.blockBytes s.x.toNat)).complete := by
  rw [exec, execI2b, unlessHalted_running herr]

end Running

/-- Settles O35: a length from 0 to 10 is written, any other raises. -/
theorem setlenWritesLength : Obligations.SetlenWritesLength := by
  refine ⟨fun n => encode_toNat_of_imm_zero rfl, fun n s herr => ⟨fun hn => ?written, fun hn => ?raised⟩⟩
  case written => exact ⟨⟨n.toNat, Nat.lt_succ_of_le hn⟩, rfl, exec_setlen_running herr _⟩
  case raised => rw [exec_setlen_badLength herr hn, raise_running herr]

/-- Settles O36: the byte is written to the one cell at LEN, and a full buffer raises. -/
theorem pushbAppendsByte : Obligations.PushbAppendsByte := by
  refine ⟨fun byte => encode_toNat_of_imm_zero rfl, fun byte s herr => ⟨fun hlen => ?stored, fun hlen => ?raised⟩⟩
  case stored =>
    exact ⟨_, exec_pushb_running herr byte (Nat.succ_lt_succ hlen), rfl, rfl,
      fun hwf => Memory.read_write_same hwf s.len.val byte, fun _ haddr => Memory.read_write_other haddr⟩
  case raised => rw [exec_pushb_full herr byte hlen, raise_running herr]

/-- Settles O37: an index below LEN is answered with its cell, any other raises. -/
theorem rdbReturnsByteBelowLength : Obligations.RdbReturnsByteBelowLength := by
  refine ⟨fun index => encode_toNat_of_imm_zero rfl, fun index s herr => ⟨fun hlt => ?read, fun hle => ?raised⟩⟩
  case read => exact ⟨_, BitVec.toNat_setWidth_of_le (by decide), exec_rdb_running herr hlt⟩
  case raised => rw [exec_rdb_badIndex herr hle, raise_running herr]

/-- Settles O38: X takes the block integer whole, which is the sum of the bytes below LEN. -/
theorem b2iWritesBlockInteger : Obligations.B2iWritesBlockInteger := by
  refine ⟨rfl, fun s herr => ⟨_, exec_b2i_running herr, rfl, ?_⟩⟩
  have hx : (BitVec.ofNat 80 s.blockInteger).toNat = s.blockInteger :=
    (BitVec.toNat_ofNat ..).trans (Nat.mod_eq_of_lt s.blockInteger_lt)
  exact ⟨hx.trans (memRead_eq_sum ..), hx.trans (memRead_eq_blockToInteger ..)⟩

/-- Settles O39: ten cells are written, each with its byte of X. -/
theorem i2bWritesAllTenCells : Obligations.I2bWritesAllTenCells := by
  refine ⟨rfl, fun s herr => ⟨_, exec_i2b_running herr, rfl, fun hwf => ?inside, fun addr haddr => ?outside⟩⟩
  case inside =>
    have hread : ∀ i, i < 10 → Memory.read (memWrite s.buf 0 10 s.x.toNat) i = BitVec.ofNat 8 (s.x.toNat / 256 ^ i) :=
      fun i hi => read_memWrite_inside hwf le_rfl hi
    refine ⟨fun i hi => (hread i hi).trans (ofNat_div_eq_extractLsb' s.x i), ?_⟩
    rw [integerToBlock, integerDigits_eq_map]
    exact List.map_congr_left fun i hi => hread i (List.mem_range.1 hi)
  case outside => exact read_memWrite_other (.inr ((Nat.zero_add _).trans_le haddr))

/-! ## The expansion of LDBLK (R126) -/

/-- Presented commands are executed one a step. -/
theorem run_presented_cons {i : Instr} {later : List Instr} {s t : State} (hreset : s.resetDone = true)
    (hmoves : s.moves = presented (i :: later)) (hexec : exec i (s.takeMove (presented later)) = .next t) :
    Host.Core.run core (i :: later).length s = Host.Core.run core later.length t := by
  have hstep : step s = .next t := (stepRunsDecodedCommand s _ _ i hreset hmoves (decode_encode i)).trans hexec
  simp only [List.length_cons, Host.Core.run, core, hstep]

/-- `t` is `s` with the presented PUSHBs of `bytes` executed: the bytes stand from the old LEN on, every other cell
reads as before. -/
structure BytesPushed (bytes : List Byte) (s t : State) : Prop where
  frame : t = { s with buf := t.buf, len := t.len, moves := [], rsps := t.rsps }
  len : t.len.val = s.len.val + bytes.length
  stored : ∀ i, (h : i < bytes.length) → Memory.read t.buf (s.len.val + i) = bytes[i]
  kept : ∀ addr, addr < s.len.val ∨ s.len.val + bytes.length ≤ addr → Memory.read t.buf addr = Memory.read s.buf addr

theorem BytesPushed.nil {s : State} (hmoves : s.moves = []) : BytesPushed [] s s where
  frame := by rw [← hmoves]
  len := rfl
  stored := nofun
  kept _ _ := rfl

/-- One byte and then the others: the cell of the first is not written again. -/
theorem BytesPushed.cons {byte : Byte} {bytes : List Byte} {later : List HostMove} {s t : State}
    (hwf : Memory.wf s.buf = true) {hroom : (s.takeMove later).len.val + 1 < 11}
    (h : BytesPushed bytes ((s.takeMove later).pushed byte hroom) t) : BytesPushed (byte :: bytes) s t := by
  obtain ⟨hframe, hlen, hstored, hkept⟩ := h
  simp only [State.pushed_len, State.pushed_buf, State.takeMove_len, State.takeMove_buf] at hlen hstored hkept
  refine ⟨hframe, hlen.trans (Nat.succ_add_eq_add_succ ..), fun i hi => ?stored, fun addr haddr => ?kept⟩
  case stored =>
    cases i with
    | zero => exact (hkept _ (.inl (Nat.lt_succ_self _))).trans (Memory.read_write_same hwf ..)
    | succ i =>
      rw [← Nat.succ_add_eq_add_succ]
      exact hstored i (Nat.lt_of_succ_lt_succ hi)
  case kept =>
    rw [List.length_cons] at haddr
    rw [hkept addr (by omega), Memory.read_write_other (by omega)]

/-- PUSHBs that find room for all their bytes are executed to the end, each on the LEN the one before it left. -/
theorem run_pushes {bytes : List Byte} {s : State} (hreset : s.resetDone = true) (herr : s.err = none)
    (hwf : Memory.wf s.buf = true) (hfit : s.len.val + bytes.length ≤ 10)
    (hmoves : s.moves = presented (bytes.map .pushb)) :
    ∃ t, Host.Core.run core (bytes.map Instr.pushb).length s = .next t ∧ BytesPushed bytes s t := by
  induction bytes generalizing s with
  | nil => exact ⟨s, rfl, .nil hmoves⟩
  | cons byte bytes ih =>
    rw [List.length_cons] at hfit
    have hroom : s.len.val + 1 < 11 := by omega
    have hexec := exec_pushb_running (s := s.takeMove (presented (bytes.map .pushb))) herr byte hroom
    obtain ⟨t, hrun, hpushed⟩ := ih (s := (s.takeMove (presented (bytes.map .pushb))).pushed byte hroom) hreset herr
      (Memory.wf_write byte hwf (Nat.lt_of_succ_lt_succ hroom)) ((Nat.succ_add_eq_add_succ ..).trans_le hfit) rfl
    exact ⟨t, (run_presented_cons hreset hmoves hexec).trans hrun, hpushed.cons hwf⟩

/-- The expansion of LDBLK (30_encoding.md R81). -/
theorem expand_ldblk {bytes : List Byte} (h : bytes.length ≤ 10) :
    expand (.ldblk (bytes.map BitVec.toNat)) = some (.setlen 0 :: bytes.map .pushb) := by
  have hfit : (bytes.map BitVec.toNat).all fitsArg = true := by
    simp only [List.all_map, List.all_eq_true, Function.comp_apply, fitsArg, decide_eq_true_eq]
    exact fun byte _ => Nat.le_of_lt_succ byte.isLt
  have hwf : (SourceLine.ldblk (bytes.map BitVec.toNat)).wellFormed = true := by
    simp [SourceLine.wellFormed, hfit, h]
  simp [expand, hwf, expandFitting]

/-- Cells that read as the bytes of a block below LEN make its integer. -/
theorem blockInteger_eq_of_reads {s : State} {bytes : List Byte} (hlen : s.len.val = bytes.length)
    (hread : ∀ i, (h : i < bytes.length) → Memory.read s.buf i = bytes[i]) : s.blockInteger = blockToInteger bytes := by
  rw [State.blockInteger, memRead_eq_blockToInteger, hlen]
  congr 1
  exact List.ext_getElem (by simp) fun i _ hi => by simpa using hread i hi

/-- Settles O42: SETLEN 0 makes LEN 0, and the bytes are pushed from cell 0 on. -/
theorem loadBlockFillsBuffer : Obligations.LoadBlockFillsBuffer := by
  intro bytes s hfit hreset herr hwf
  have hexec := exec_setlen_running (s := s.takeMove (presented (bytes.map .pushb))) herr (n := 0) (by decide)
  obtain ⟨t, hrun, hframe, hlen, hstored, hkept⟩ := run_pushes
    (s := ((s.takeMove (presented (bytes.map .pushb))).putLen 0).complete) hreset herr hwf
    ((Nat.zero_add _).trans_le hfit) rfl
  have hlen : t.len.val = bytes.length := hlen.trans (Nat.zero_add _)
  have hstored : ∀ i, (h : i < bytes.length) → Memory.read t.buf i = bytes[i] :=
    fun i hi => (congrArg (Memory.read t.buf) (Nat.zero_add i).symm).trans (hstored i hi)
  have hfirst := run_presented_cons (s := s.takeMove (presented (.setlen 0 :: bytes.map .pushb))) hreset rfl hexec
  exact ⟨_, t, expand_ldblk hfit, hfirst.trans hrun, hframe, hlen, hstored,
    fun addr haddr => hkept addr (.inr ((Nat.zero_add _).trans_le haddr)), blockInteger_eq_of_reads hlen hstored⟩

end Sys2Proof.Machine
end

section
/-! PROOFS. The affine block cipher (42_cipher.md): the two transforms as congruences modulo M (R140, R152, R153), what
LDA, LDB, LDX, ENC, DEC, ENCBLK and DECBLK do on a running core (R143 to R151), and how a stream is cut into blocks
(R158). -/

namespace Sys2Proof.Machine

/-! ## The two transforms (R140, R152) -/

theorem encBlock_lt (v a b : Nat) : encBlock v a b < 2 ^ 80 := by
  rw [encBlock, modulus_eq]
  exact Nat.mod_lt _ (by decide)

theorem decBlock_lt (v b invA : Nat) : decBlock v b invA < 2 ^ 80 := by
  rw [decBlock, modulus_eq]
  exact Nat.mod_lt _ (by decide)

theorem encBlock_cast (v a b : Nat) : (encBlock v a b : Int) = (a * v + b) % 2 ^ 80 := by
  rw [encBlock, modulus_eq]
  push_cast
  rfl

theorem decBlock_cast (v b invA : Nat) : (decBlock v b invA : Int) = (v - b : Int) % 2 ^ 80 * invA % 2 ^ 80 := by
  rw [decBlock, modulus_eq, Int.natCast_mod, Nat.cast_mul, normalizeM_cast]
  rfl

theorem encBlock_modEq (v a b : Nat) : (encBlock v a b : Int) ≡ a * v + b [ZMOD 2 ^ 80] := by
  rw [encBlock_cast]
  exact Int.mod_modEq _ _

theorem decBlock_modEq (v b invA : Nat) : (decBlock v b invA : Int) ≡ (v - b) * invA [ZMOD 2 ^ 80] := by
  rw [decBlock_cast]
  exact (Int.mod_modEq _ _).trans ((Int.mod_modEq _ _).mul_right _)

section Inverse
variable {a invA : Nat} (hinv : a * invA % 2 ^ 80 = 1)
include hinv

theorem inverse_modEq : (a * invA : Int) ≡ 1 [ZMOD 2 ^ 80] := by
  exact_mod_cast (Int.natCast_modEq_iff.2 hinv : ((a * invA : Nat) : Int) ≡ (1 : Nat) [ZMOD (2 ^ 80 : Nat)])

/-- What agrees with a ciphertext modulo a divisor of M decrypts to what agrees with the plaintext: with the divisor M
this is R152, with `256^LEN` it is why a truncated block comes back (R153). -/
theorem decBlock_modEq_of_modEq_encBlock {m : Nat} (hm : m ∣ 2 ^ 80) {v b w : Nat}
    (hw : w ≡ encBlock v a b [MOD m]) : decBlock w b invA ≡ v [MOD m] := by
  have hm : (m : Int) ∣ 2 ^ 80 := by exact_mod_cast hm
  rw [← Int.natCast_modEq_iff] at hw ⊢
  calc (decBlock w b invA : Int)
      ≡ (w - b) * invA [ZMOD m] := (decBlock_modEq w b invA).of_dvd hm
    _ ≡ (a * v + b - b) * invA [ZMOD m] := ((hw.trans ((encBlock_modEq v a b).of_dvd hm)).sub_right _).mul_right _
    _ = a * invA * v := by ring
    _ ≡ 1 * v [ZMOD m] := ((inverse_modEq hinv).of_dvd hm).mul_right _
    _ = v := one_mul _

theorem decBlock_encBlock {v : Nat} (hv : v < 2 ^ 80) (b : Nat) : decBlock (encBlock v a b) b invA = v :=
  (decBlock_modEq_of_modEq_encBlock hinv dvd_rfl rfl).eq_of_lt_of_lt (decBlock_lt ..) hv

theorem encBlock_decBlock {v : Nat} (hv : v < 2 ^ 80) (b : Nat) : encBlock (decBlock v b invA) a b = v := by
  refine Nat.ModEq.eq_of_lt_of_lt (Int.natCast_modEq_iff.1 ?_) (encBlock_lt ..) hv
  calc (encBlock (decBlock v b invA) a b : Int)
      ≡ a * decBlock v b invA + b [ZMOD 2 ^ 80] := encBlock_modEq ..
    _ ≡ a * ((v - b) * invA) + b [ZMOD 2 ^ 80] := ((decBlock_modEq v b invA).mul_left _).add_right _
    _ = a * invA * (v - b) + b := by ring
    _ ≡ 1 * (v - b) + b [ZMOD 2 ^ 80] := ((inverse_modEq hinv).mul_right _).add_right _
    _ = v := by ring

end Inverse

/-- Settles O51: modulo M each transform is an affine map, and both reduce into `[0, M)`. -/
theorem transformsAreInverse : Obligations.TransformsAreInverse :=
  fun _ b _ _ _ _ _ hv hinv => ⟨decBlock_encBlock hinv hv b, encBlock_decBlock hinv hv b⟩

/-! ## The values the commands compute (R146 to R149) -/

theorem State.encrypted_lt (v : Nat) (s : State) : s.encrypted v < 2 ^ 80 := encBlock_lt ..

theorem State.decrypted_lt (v : Nat) (s : State) : s.decrypted v < 2 ^ 80 := decBlock_lt ..

/-- A value of `[0, M)` fits X. -/
theorem ofNat_toNat_of_lt {v : Nat} (hv : v < 2 ^ 80) : (BitVec.ofNat 80 v).toNat = v :=
  (BitVec.toNat_ofNat ..).trans (Nat.mod_eq_of_lt hv)

theorem ofNat_encrypted_toNat (v : Nat) (s : State) :
    (BitVec.ofNat 80 (s.encrypted v)).toNat = (s.a.toNat * v + s.b.toNat) % 2 ^ 80 := by
  rw [ofNat_toNat_of_lt (s.encrypted_lt v), State.encrypted, encBlock, modulus_eq]

theorem ofNat_decrypted_toNat (v : Nat) (s : State) :
    ((BitVec.ofNat 80 (s.decrypted v)).toNat : Int) =
      ((v : Int) - s.b.toNat) % 2 ^ 80 * s.inva.toNat % 2 ^ 80 := by
  rw [ofNat_toNat_of_lt (s.decrypted_lt v), State.decrypted, decBlock_cast]

/-- The block integer looks at LEN and the cells below it alone. -/
theorem blockInteger_congr {s u : State} (hlen : s.len = u.len)
    (hread : ∀ k, k < s.len.val → Memory.read s.buf k = Memory.read u.buf k) : s.blockInteger = u.blockInteger := by
  rw [State.blockInteger, State.blockInteger, ← hlen]
  exact memRead_congr fun k hk => by rw [Nat.zero_add]; exact hread k hk

/-! ## The key checks (R146 to R149) -/

section Keys
variable {s : State} {rule : State → State}

theorem withEncryptionKey_loaded (hav : s.av = true) (hbv : s.bv = true) : withEncryptionKey rule s = rule s := by
  simpa [hav, hbv] using withEncryptionKey_cases rule s

theorem withEncryptionKey_missing (h : s.av = false ∨ s.bv = false) :
    withEncryptionKey rule s = raise .keyNotLoaded s := by
  obtain ⟨⟨hav, hbv⟩, -⟩ | ⟨-, he⟩ := withEncryptionKey_cases rule s
  · simp [hav, hbv] at h
  · exact he

theorem withDecryptionKey_ready (hbv : s.bv = true) (hinvv : s.invv = true) : withDecryptionKey rule s = rule s := by
  simpa [hbv, hinvv] using withDecryptionKey_cases rule s

theorem withDecryptionKey_noAddend (hbv : s.bv = false) : withDecryptionKey rule s = raise .keyNotLoaded s := by
  simpa [hbv] using withDecryptionKey_cases rule s

theorem withDecryptionKey_noInverse (hbv : s.bv = true) (hinvv : s.invv = false) :
    withDecryptionKey rule s = raise .inverseNotReady s := by
  simpa [hbv, hinvv] using withDecryptionKey_cases rule s

end Keys

/-! ## The commands on a running core (R143 to R149) -/

/-- The word of a command that takes its operand from IMM alone. -/
theorem encode_toNat_of_arg_zero {i : Instr} (h : argOf i = 0) :
    (encode i).toNat = (opcodeOf i).toNat * 2 ^ 88 + (immOf i).toNat := by
  rw [encode_toNat, h, BitVec.ofNat_eq_ofNat, BitVec.toNat_zero, Nat.zero_mul, Nat.add_zero]

section Running
variable {s : State} (herr : s.err = none)
include herr

theorem exec_enc_running (hav : s.av = true) (hbv : s.bv = true) :
    exec .enc s = .next (s.putX (BitVec.ofNat 80 (s.encrypted s.x.toNat))).complete := by
  rw [exec, execEnc, unlessHalted_running herr, withEncryptionKey_loaded hav hbv]

theorem exec_encblk_running (hav : s.av = true) (hbv : s.bv = true) :
    exec .encblk s = .next (s.putBlock (s.encrypted s.blockInteger)).complete := by
  rw [exec, execEncblk, unlessHalted_running herr, withEncryptionKey_loaded hav hbv]

theorem exec_dec_running (hbv : s.bv = true) (hinvv : s.invv = true) :
    exec .dec s = .next (s.putX (BitVec.ofNat 80 (s.decrypted s.x.toNat))).complete := by
  rw [exec, execDec, unlessHalted_running herr, withDecryptionKey_ready hbv hinvv]

theorem exec_decblk_running (hbv : s.bv = true) (hinvv : s.invv = true) :
    exec .decblk s = .next (s.putBlock (s.decrypted s.blockInteger)).complete := by
  rw [exec, execDecblk, unlessHalted_running herr, withDecryptionKey_ready hbv hinvv]

theorem exec_encryption_keyNotLoaded {i : Instr} (hi : i = .enc ∨ i = .encblk) (h : s.av = false ∨ s.bv = false) :
    exec i s = .next (raise .keyNotLoaded s) := by
  obtain rfl | rfl := hi
  · rw [exec, execEnc, unlessHalted_running herr, withEncryptionKey_missing h]
  · rw [exec, execEncblk, unlessHalted_running herr, withEncryptionKey_missing h]

theorem exec_decryption_keyNotLoaded {i : Instr} (hi : i = .dec ∨ i = .decblk) (hbv : s.bv = false) :
    exec i s = .next (raise .keyNotLoaded s) := by
  obtain rfl | rfl := hi
  · rw [exec, execDec, unlessHalted_running herr, withDecryptionKey_noAddend hbv]
  · rw [exec, execDecblk, unlessHalted_running herr, withDecryptionKey_noAddend hbv]

theorem exec_decryption_inverseNotReady {i : Instr} (hi : i = .dec ∨ i = .decblk) (hbv : s.bv = true)
    (hinvv : s.invv = false) : exec i s = .next (raise .inverseNotReady s) := by
  obtain rfl | rfl := hi
  · rw [exec, execDec, unlessHalted_running herr, withDecryptionKey_noInverse hbv hinvv]
  · rw [exec, execDecblk, unlessHalted_running herr, withDecryptionKey_noInverse hbv hinvv]

end Running

/-- Settles O43: A is loaded and what was computed for the old A is cleared. -/
theorem ldaLoadsMultiplier : Obligations.LdaLoadsMultiplier := by
  refine ⟨fun a => encode_toNat_of_arg_zero rfl, fun a s herr => ?_⟩
  rw [exec, execLda, unlessHalted_running herr]
  rfl

/-- Settles O44: B is loaded and nothing else is written. -/
theorem ldbLoadsAddend : Obligations.LdbLoadsAddend := by
  refine ⟨fun b => encode_toNat_of_arg_zero rfl, fun b s herr => ?_⟩
  rw [exec, execLdb, unlessHalted_running herr]
  rfl

/-- Settles O45: X is loaded and nothing else is written. -/
theorem ldxLoadsBlockInteger : Obligations.LdxLoadsBlockInteger := by
  refine ⟨fun v => encode_toNat_of_arg_zero rfl, fun v s herr => ?_⟩
  rw [exec, execLdx, unlessHalted_running herr]
  rfl

/-- Settles O46: with both parameters loaded X takes the transformed value, else KeyNotLoaded is raised. -/
theorem encTransformsX : Obligations.EncTransformsX := by
  refine ⟨rfl, fun s herr => ⟨fun hav hbv => ?loaded, fun hmissing => ?missing⟩⟩
  case loaded => exact ⟨_, exec_enc_running herr hav hbv, rfl, ofNat_encrypted_toNat _ s⟩
  case missing => rw [exec_encryption_keyNotLoaded herr (.inl rfl) hmissing, raise_running herr]

/-- Settles O47: with addend and inverse ready X takes the transformed value, else the first check that fails raises. -/
theorem decTransformsX : Obligations.DecTransformsX := by
  refine ⟨rfl, fun s herr => ⟨fun hbv hinvv => ?ready, fun hbv => ?noAddend, fun hbv hinvv => ?noInverse⟩⟩
  case ready => exact ⟨_, exec_dec_running herr hbv hinvv, rfl, ofNat_decrypted_toNat _ s⟩
  case noAddend => rw [exec_decryption_keyNotLoaded herr (.inl rfl) hbv, raise_running herr]
  case noInverse => rw [exec_decryption_inverseNotReady herr (.inl rfl) hbv hinvv, raise_running herr]

/-! ## Writing a block (R148, R149) -/

/-- The ten cells of a block written are its bytes. -/
theorem read_putBlock {s : State} (hwf : Memory.wf s.buf = true) (v : Nat) {i : Nat} (hi : i < 10) :
    Memory.read (s.putBlock v).buf i = BitVec.ofNat 8 (v / 256 ^ i) :=
  read_memWrite_inside hwf le_rfl hi

theorem read_putBlock_eq_extractLsb' {s : State} (hwf : Memory.wf s.buf = true) {v : Nat} (hv : v < 2 ^ 80) {i : Nat}
    (hi : i < 10) : Memory.read (s.putBlock v).buf i = (s.putBlock v).x.extractLsb' (8 * i) 8 := by
  rw [read_putBlock hwf v hi, State.putBlock_x, ← ofNat_div_eq_extractLsb', ofNat_toNat_of_lt hv]

theorem read_putBlock_outside (s : State) (v : Nat) {addr : Nat} (haddr : 10 ≤ addr) :
    Memory.read (s.putBlock v).buf addr = Memory.read s.buf addr :=
  read_memWrite_other (.inr ((Nat.zero_add _).trans_le haddr))

/-- Settles O48: the value is ENC's on the sum of the valid bytes, and its bytes fill the ten cells. -/
theorem encblkTransformsBlock : Obligations.EncblkTransformsBlock := by
  refine ⟨rfl, fun s herr => ⟨fun hav hbv => ?loaded, fun hmissing => ?missing⟩⟩
  case loaded =>
    refine ⟨_, exec_encblk_running herr hav hbv, rfl, ?x,
      fun hwf i => read_putBlock_eq_extractLsb' hwf (s.encrypted_lt _), fun addr => read_putBlock_outside s _⟩
    rw [← memRead_eq_sum]
    exact ofNat_encrypted_toNat s.blockInteger s
  case missing => rw [exec_encryption_keyNotLoaded herr (.inr rfl) hmissing, raise_running herr]

/-- Settles O49: the value is DEC's on the sum of the valid bytes, and its bytes fill the ten cells. -/
theorem decblkTransformsBlock : Obligations.DecblkTransformsBlock := by
  refine ⟨rfl, fun s herr => ⟨fun hbv hinvv => ?ready, fun hbv => ?noAddend, fun hbv hinvv => ?noInverse⟩⟩
  case ready =>
    refine ⟨_, exec_decblk_running herr hbv hinvv, rfl, ?x,
      fun hwf i => read_putBlock_eq_extractLsb' hwf (s.decrypted_lt _), fun addr => read_putBlock_outside s _⟩
    have hsum : (∑ i ∈ Finset.range s.len.val, ((Memory.read s.buf i).toNat : Int) * 256 ^ i) = s.blockInteger := by
      rw [State.blockInteger, memRead_eq_sum]
      push_cast
      rfl
    rw [hsum]
    exact ofNat_decrypted_toNat s.blockInteger s
  case noAddend => rw [exec_decryption_keyNotLoaded herr (.inr rfl) hbv, raise_running herr]
  case noInverse => rw [exec_decryption_inverseNotReady herr (.inr rfl) hbv hinvv, raise_running herr]

/-! ## The fused and the split commands (R150) -/

/-- After a fault ERR is not 0, whichever fault was the first (60_exceptions.md R183). -/
theorem raise_err_ne_none (c : Cause) (s : State) : (raise c s).err ≠ none := by
  cases h : s.err with
  | none => simp [State.recordFault_err_running h]
  | some first => simp [State.recordFault_err_halted h]

/-- The core after B2I (41_converter.md R128). -/
def State.blockRead (s : State) : State := (s.putX (BitVec.ofNat 80 s.blockInteger)).complete

@[simp] theorem State.blockRead_x_toNat (s : State) : s.blockRead.x.toNat = s.blockInteger :=
  ofNat_toNat_of_lt s.blockInteger_lt

/-- I2B after a transform that left `v` in X makes of the split sequence what writing the block `v` makes at once. -/
theorem exec_i2b_after_transform {s : State} (herr : s.err = none) {v : Nat} (hv : v < 2 ^ 80) :
    ∃ t, exec .i2b (s.blockRead.putX (BitVec.ofNat 80 v)).complete = .next t ∧
      (s.putBlock v).complete.SameArchitecture t := by
  refine ⟨_, exec_i2b_running herr, rfl, rfl, rfl, rfl, rfl, rfl, rfl, rfl, rfl, ?buf, rfl, rfl⟩
  exact congrArg (memWrite s.buf 0 Config.blockBytes) (ofNat_toNat_of_lt hv).symm

/-- Settles O50: B2I leaves the block integer in X, so the transform after it computes the value of the fused command;
without the key B2I has already written X when ENC raises. -/
theorem fusedCommandsEqualSplitOnes : Obligations.FusedCommandsEqualSplitOnes := by
  intro s herr
  refine ⟨fun hav hbv => ?encrypt, fun hbv hinvv => ?decrypt, fun hmissing => ?missing⟩
  case encrypt =>
    have henc := exec_enc_running (s := s.blockRead) herr hav hbv
    rw [s.blockRead_x_toNat] at henc
    obtain ⟨t, hi2b, hsame⟩ := exec_i2b_after_transform herr (s.encrypted_lt s.blockInteger)
    exact ⟨_, _, _, t, exec_encblk_running herr hav hbv, exec_b2i_running herr, henc, hi2b, hsame⟩
  case decrypt =>
    have hdec := exec_dec_running (s := s.blockRead) herr hbv hinvv
    rw [s.blockRead_x_toNat] at hdec
    obtain ⟨t, hi2b, hsame⟩ := exec_i2b_after_transform herr (s.decrypted_lt s.blockInteger)
    exact ⟨_, _, _, t, exec_decblk_running herr hbv hinvv, exec_b2i_running herr, hdec, hi2b, hsame⟩
  case missing =>
    exact ⟨_, _, _, exec_encryption_keyNotLoaded herr (.inr rfl) hmissing, exec_b2i_running herr,
      exec_encryption_keyNotLoaded (s := s.blockRead) herr (.inl rfl) hmissing, raise_err_ne_none _ s,
      raise_err_ne_none _ s.blockRead, rfl, rfl, s.blockRead_x_toNat⟩

/-! ## What a transform depends on (R151) -/

theorem State.encrypted_congr {s u : State} (ha : s.a = u.a) (hb : s.b = u.b) (v : Nat) :
    s.encrypted v = u.encrypted v := by
  rw [State.encrypted, State.encrypted, ha, hb]

theorem State.decrypted_congr {s u : State} (hinva : s.inva = u.inva) (hb : s.b = u.b) (v : Nat) :
    s.decrypted v = u.decrypted v := by
  rw [State.decrypted, State.decrypted, hinva, hb]

/-- Settles O53: equal operands under equal parameters give equal values, and a block written leaves nothing of what a
canonical buffer held. -/
theorem transformsKeepNoHistory : Obligations.TransformsKeepNoHistory := by
  intro s u hs hu
  refine ⟨fun hav hbv hav' hbv' ha hb hlen => ⟨fun hx => ?enc, fun hread => ?encblk⟩,
    fun hbv hinvv hbv' hinvv' hinva hb hlen => ⟨fun hx => ?dec, fun hread => ?decblk⟩⟩
  case enc =>
    refine ⟨_, _, exec_enc_running hs hav hbv, exec_enc_running hu hav' hbv', ?_⟩
    rw [State.encrypted_congr ha hb, hx]
    rfl
  case encblk =>
    refine ⟨_, _, exec_encblk_running hs hav hbv, exec_encblk_running hu hav' hbv', ?_⟩
    rw [State.encrypted_congr ha hb, blockInteger_congr hlen hread]
    exact ⟨rfl, memWrite_block_eq _⟩
  case dec =>
    refine ⟨_, _, exec_dec_running hs hbv hinvv, exec_dec_running hu hbv' hinvv', ?_⟩
    rw [State.decrypted_congr hinva hb, hx]
    rfl
  case decblk =>
    refine ⟨_, _, exec_decblk_running hs hbv hinvv, exec_decblk_running hu hbv' hinvv', ?_⟩
    rw [State.decrypted_congr hinva hb, blockInteger_congr hlen hread]
    exact ⟨rfl, memWrite_block_eq _⟩

/-! ## A block of any length comes back (R153) -/

/-- The cells that hold the `n` lowest bytes of a value make its remainder by `256^n`. -/
theorem memRead_eq_mod_of_reads {m : Memory} {n v : Nat}
    (h : ∀ i, i < n → Memory.read m i = BitVec.ofNat 8 (v / 256 ^ i)) : memRead m 0 n = v % 256 ^ n := by
  rw [memRead_eq_blockToInteger, ← blockToInteger_integerDigits, integerDigits_eq_map]
  exact congrArg blockToInteger (List.map_congr_left fun i hi => h i (List.mem_range.1 hi))

/-- The bytes of what `n` cells make are the cells. -/
theorem integerDigits_memRead (m : Memory) (n : Nat) :
    integerDigits n (memRead m 0 n) = (List.range n).map (Memory.read m) := by
  rw [memRead_eq_blockToInteger, integerDigits_blockToInteger (by simp)]
  simp

/-- A value that agrees modulo `256^n` with what `n` cells make has the cells as its `n` lowest bytes. -/
theorem ofNat_div_eq_read_of_modEq {m : Memory} {n v i : Nat} (h : v ≡ memRead m 0 n [MOD 256 ^ n]) (hi : i < n) :
    BitVec.ofNat 8 (v / 256 ^ i) = Memory.read m i := by
  have hdigits : integerDigits n v = integerDigits n (memRead m 0 n) := by
    rw [← integerDigits_mod, h, integerDigits_mod]
  rw [integerDigits_memRead, integerDigits_eq_map] at hdigits
  exact List.map_inj_left.1 hdigits i (List.mem_range.2 hi)

/-- The weight of LEN bytes divides M. -/
theorem pow_len_dvd (s : State) : 256 ^ s.len.val ∣ 2 ^ 80 :=
  (pow_dvd_pow 256 (Nat.le_of_lt_succ s.len.isLt)).trans (by norm_num)

/-- Settles O52: the kept bytes are the ciphertext modulo `256^LEN`, so the value decrypted from them is the block
integer modulo `256^LEN`, and these are the bytes below LEN. -/
theorem shortBlockRoundTrip : Obligations.ShortBlockRoundTrip := by
  intro s hs herr hbv hinvv
  have hwf := hs.bufferCanonical
  have hlen := Nat.le_of_lt_succ s.len.isLt
  obtain ⟨-, hinverse, -⟩ := hs
  obtain ⟨hav, -, -, hmul, -⟩ := hinverse hinvv
  refine ⟨_, exec_encblk_running herr hav hbv, rfl, fun kept hkept hkeptwf =>
    ⟨_, exec_decblk_running (s := (s.putBlock (s.encrypted s.blockInteger)).complete.putBuf kept) herr hbv hinvv,
      rfl, fun i hi => ?_⟩⟩
  have hcipher : memRead kept 0 s.len.val = s.encrypted s.blockInteger % 256 ^ s.len.val :=
    memRead_eq_mod_of_reads fun k hk => (hkept k hk).trans (read_putBlock hwf _ (hk.trans_le hlen))
  have hplain : decBlock (memRead kept 0 s.len.val) s.b.toNat s.inva.toNat ≡ s.blockInteger [MOD 256 ^ s.len.val] :=
    decBlock_modEq_of_modEq_encBlock hmul (pow_len_dvd s) (by rw [hcipher]; exact Nat.mod_modEq _ _)
  exact (read_memWrite_inside hkeptwf le_rfl (hi.trans_le hlen)).trans (ofNat_div_eq_read_of_modEq hplain hi)

/-! ## The blocks of a stream (R158) -/

/-- The lengths of the blocks of a stream of `n` bytes. -/
def blockLengths (n : Nat) : List Nat := List.replicate (n / 10) 10 ++ if n % 10 = 0 then [] else [n % 10]

/-- The first block is full or the whole of a short stream. -/
theorem blockLengths_eq_cons {n : Nat} (hn : n ≠ 0) : blockLengths n = min 10 n :: blockLengths (n - 10) := by
  by_cases hlt : n < 10
  · have hsub : n - 10 = 0 := by omega
    simp [blockLengths, hsub, Nat.div_eq_of_lt hlt, Nat.mod_eq_of_lt hlt, hn, hlt.le]
  · obtain ⟨k, rfl⟩ := Nat.exists_eq_add_of_le' (Nat.le_of_not_lt hlt)
    simp [blockLengths, List.replicate_succ]

theorem cutBlocks_flatten {fuel : Nat} {bytes : List Byte} (h : bytes.length ≤ fuel) :
    (cutBlocks fuel bytes).flatten = bytes := by
  induction fuel generalizing bytes with
  | zero => exact (List.length_eq_zero_iff.1 (Nat.le_zero.1 h)).symm
  | succ fuel ih =>
    cases bytes with
    | nil => rfl
    | cons byte bytes =>
      rw [cutBlocks, List.flatten_cons, ih, List.take_append_drop]
      · simp only [List.length_drop, Config.blockBytes]
        omega
      · nofun

theorem cutBlocks_lengths {fuel : Nat} {bytes : List Byte} (h : bytes.length ≤ fuel) :
    (cutBlocks fuel bytes).map List.length = blockLengths bytes.length := by
  induction fuel generalizing bytes with
  | zero =>
    rw [Nat.le_zero.1 h]
    rfl
  | succ fuel ih =>
    cases bytes with
    | nil => rfl
    | cons byte bytes =>
      rw [cutBlocks, List.map_cons, ih, blockLengths_eq_cons (n := (byte :: bytes).length) nofun, List.length_take,
        List.length_drop, Config.blockBytes]
      · simp only [List.length_drop, Config.blockBytes]
        omega
      · nofun

/-- Settles O22: each turn takes ten bytes, or what is left, off a stream that its own length bounds. -/
theorem streamIsCutIntoBlocks : Obligations.StreamIsCutIntoBlocks :=
  fun _ => ⟨cutBlocks_flatten le_rfl, cutBlocks_lengths le_rfl⟩

end Sys2Proof.Machine
end

section
/-! PROOFS. The system commands (43_system.md): NOP responds, INIT starts a new run and alone clears ERR, RD answers with
the register its ARG names (R170 to R172). -/

namespace Sys2Proof.Machine

/-! ## RD (R172) -/

/-- RD of a number that names a register answers with its value and changes nothing, halted or not. -/
theorem exec_rd_of_register {reg : Byte} {s : State} {value : Data} (h : registerView reg s = some value) :
    exec (.rd reg) s = .next (s.respond .completed value) := by
  simp only [exec, execRd, evenHalted_eq, h]

/-- RD of a number that names none raises BadIndex, halted or not. -/
theorem exec_rd_badIndex {reg : Byte} {s : State} (h : registerView reg s = none) :
    exec (.rd reg) s = .next (raise .badIndex s) := by
  simp only [exec, execRd, evenHalted_eq, h]

/-- RD of a register that is zero-extended into DATA (10_state.md R35). -/
theorem exec_rd_zeroExtended {reg : Byte} {s : State} {w : Nat} {v : BitVec w} (hw : w ≤ 96)
    (h : registerView reg s = some (v.setWidth 96)) :
    ∃ d : Data, exec (.rd reg) s = .next (s.respond .completed d) ∧ d.toNat = v.toNat :=
  ⟨_, exec_rd_of_register h, BitVec.toNat_setWidth_of_le hw⟩

/-- The numbers from 7 up name no register (10_state.md R35). -/
theorem registerView_eq_none {reg : Byte} (h : 7 ≤ reg.toNat) (s : State) : registerView reg s = none := by
  obtain ⟨hlt, -⟩ | ⟨-, hnone⟩ := registerView_cases reg s
  · omega
  · exact hnone

/-- Settles O25: the numbers 0 to 6 are answered with the register's value extended to DATA, any other raises, which
records the fault where it is the first. -/
theorem rdReturnsTheRegister : Obligations.RdReturnsTheRegister := by
  intro s
  refine ⟨exec_rd_of_register rfl, exec_rd_zeroExtended (by decide) rfl, exec_rd_zeroExtended (by decide) rfl,
    exec_rd_zeroExtended (by decide) rfl, exec_rd_zeroExtended (by decide) rfl, exec_rd_zeroExtended (by decide) rfl,
    ?signed, fun reg hreg => ?badIndex⟩
  case signed => exact ⟨_, exec_rd_of_register rfl, BitVec.toInt_signExtend_of_le (by decide)⟩
  case badIndex =>
    exact ⟨_, exec_rd_badIndex (registerView_eq_none hreg s), rfl, fun hnone => State.recordFault_err_running hnone _,
      fun _ hfirst => State.recordFault_err_halted hfirst _⟩

/-! ## NOP and INIT (R170, R171) -/

/-- Settles O23: NOP runs while halted too, and its rule is to complete. -/
theorem nopOnlyResponds : Obligations.NopOnlyResponds :=
  ⟨rfl, fun s => evenHalted_eq State.complete s⟩

/-- A command that takes a halted core to ERR = 0 is marked for ERR in the table of 10_state.md R41, as INIT alone is. -/
theorem eq_init_of_exec_clears_err {i : Instr} {s t : State} (hs : s.err ≠ none) (hexec : exec i s = .next t)
    (ht : t.err = none) : i = .init := by
  obtain hagree | hwrites := exec_agree_or_writes (f := .err) hexec fun _ => hs
  · exact absurd (hagree.symm.trans ht) hs
  · exact eq_init_of_writesField_err hwrites

/-- Settles O24: INIT starts a run and completes, and no other command clears an ERR that is not 0. -/
theorem initStartsNewRun : Obligations.InitStartsNewRun :=
  ⟨rfl, fun s => ⟨exec_init s, fun _ _ => eq_init_of_exec_clears_err⟩⟩

end Sys2Proof.Machine
end

section
/-! PROOFS. Faults and the halted core (60_exceptions.md): an idle core (R201), an illegal word (R185), what a halted
core refuses and answers, in one command and along a whole run (R184, R204), what a raised fault writes (R183), and
which command raises which cause (R181). -/

namespace Sys2Proof.Machine

/-! ## An idle core and an illegal word (R185, R201) -/

/-- Settles O12: with no move waiting a step is idle. -/
theorem idleCoreKeepsItsState : Obligations.IdleCoreKeepsItsState := by
  intro s hreset hmoves
  simp only [step, nextMove, hmoves, hreset, if_true]

/-- After a first reset an illegal word is taken and answered as one. -/
theorem step_of_illegal {s : State} {w : CommandWord} {moves : List HostMove} {why : Illegal}
    (hreset : s.resetDone = true) (hmoves : s.moves = .command w :: moves) (hdec : decode w = .error why) :
    step s = executeIllegal (s.takeMove moves) := by
  rw [step_of_command hreset hmoves, executeWord, hdec]

/-- Settles O9: a running core raises IllegalCommand, and raising writes ERR alone; the decoder computes on the two
words. -/
theorem illegalWordRaisesIllegalCommand : Obligations.IllegalWordRaisesIllegalCommand := by
  refine ⟨fun s w moves why hreset hmoves hdec herr => ?_, ⟨_, by rfl⟩, ⟨_, by rfl⟩⟩
  rw [step_of_illegal hreset hmoves hdec, executeIllegal, unlessHalted_running (s := s.takeMove moves) herr,
    raise_running (s := s.takeMove moves) herr]
  rfl

/-! ## One command on a halted core (R184) -/

theorem runsWhileHalted_eq_false_iff (i : Instr) :
    runsWhileHalted i = false ↔ i ≠ .nop ∧ i ≠ .init ∧ ∀ reg, i ≠ .rd reg := by
  cases i <;> simp [runsWhileHalted]

section Halted
variable {s : State} {first : Cause} (hs : s.err = some first)
include hs

theorem exec_halted {i : Instr} (hi : runsWhileHalted i = false) : exec i s = .next (refuseHalted s) := by
  obtain ⟨t, hexec, ⟨-, -, rfl⟩ | ⟨hruns | hnone, -⟩⟩ := exec_answers i s
  · exact hexec
  · exact absurd (hruns.symm.trans hi) nofun
  · exact absurd (hs.symm.trans hnone) nofun

/-- RD of no register on a halted core: the first fault stays in ERR (60_exceptions.md R190). -/
theorem exec_rd_badIndex_halted {reg : Byte} (h : registerView reg s = none) :
    exec (.rd reg) s = .next (s.respond (.raised .badIndex) 0) := by
  rw [exec_rd_badIndex h, raise_halted hs]
  rfl

end Halted

/-- Settles O10: the prologue refuses all but NOP, INIT and RD, and for an illegal word too; the three have their rules,
and the fault of RD finds ERR taken. -/
theorem haltedCoreRefuses : Obligations.HaltedCoreRefuses := by
  intro s first hs
  refine ⟨fun i hnop hinit hrd => ?refused, fun w moves why hreset hmoves hdec => ?illegal, rfl, exec_init s,
    fun reg value => exec_rd_of_register, fun reg => exec_rd_badIndex_halted hs⟩
  case refused => exact exec_halted hs ((runsWhileHalted_eq_false_iff i).2 ⟨hnop, hinit, hrd⟩)
  case illegal =>
    rw [step_of_illegal hreset hmoves hdec]
    exact unlessHalted_halted (s := s.takeMove moves) hs

/-! ## A halted run (R184, R204) -/

/-- All a response of a run halted in `s` can carry: DATA 0, or a register of `s` read by an RD that completed. -/
def CarriesZeroOrRegister (s : State) (r : Response) : Prop :=
  r.data = 0 ∨ (r.code = .completed ∧ ∃ reg, registerView reg s = some r.data)

/-- On a halted core a command other than INIT does no more than respond. -/
theorem exec_halted_responds {i : Instr} {s : State} {first : Cause} (hs : s.err = some first) (hi : i ≠ .init) :
    ∃ code data, exec i s = .next (s.respond code data) ∧ CarriesZeroOrRegister s ⟨code, data⟩ := by
  cases i with
  | init => exact absurd rfl hi
  | nop => exact ⟨_, _, rfl, .inl rfl⟩
  | rd reg =>
    cases hview : registerView reg s with
    | some value => exact ⟨_, _, exec_rd_of_register hview, .inr ⟨rfl, reg, hview⟩⟩
    | none => exact ⟨_, _, exec_rd_badIndex_halted hs hview, .inl rfl⟩
  | _ => exact ⟨_, _, exec_halted hs rfl, .inl rfl⟩

/-- `t` follows `s` by moves taken and responses given alone, with no move that ends the run still waiting. -/
structure FrozenSince (s t : State) : Prop where
  frame : t = { s with moves := t.moves, rsps := t.rsps }
  pending : ∀ move ∈ t.moves, endsRun move = false
  answers : ∃ later, t.rsps = later ++ s.rsps ∧ ∀ r ∈ later, CarriesZeroOrRegister s r

theorem FrozenSince.refl {s : State} (hmoves : ∀ move ∈ s.moves, endsRun move = false) : FrozenSince s s where
  frame := rfl
  pending := hmoves
  answers := ⟨[], rfl, nofun⟩

/-- The registers that RD can name are those of the state the run halted in. -/
theorem FrozenSince.carries {s t : State} {r : Response} (h : FrozenSince s t) (hr : CarriesZeroOrRegister t r) :
    CarriesZeroOrRegister s r := by
  rw [h.frame] at hr
  exact hr

/-- One more move taken and answered. -/
theorem FrozenSince.respond {s t : State} {move : HostMove} {moves : List HostMove} {code : Code} {data : Data}
    (h : FrozenSince s t) (hmoves : t.moves = move :: moves) (hcarries : CarriesZeroOrRegister t ⟨code, data⟩) :
    FrozenSince s ((t.takeMove moves).respond code data) where
  frame := by
    rw [h.frame]
    rfl
  pending later hlater := h.pending later (hmoves ▸ List.mem_cons_of_mem move hlater)
  answers := by
    obtain ⟨later, hrsps, hlater⟩ := h.answers
    exact ⟨⟨code, data⟩ :: later, congrArg (List.cons _) hrsps, List.forall_mem_cons.2 ⟨h.carries hcarries, hlater⟩⟩

theorem FrozenSince.err_eq {s t : State} (h : FrozenSince s t) : t.err = s.err := by
  rw [h.frame]

theorem FrozenSince.sameArchitecture {s t : State} (h : FrozenSince s t) : t.SameArchitecture s := by
  rw [h.frame]
  exact ⟨rfl, rfl, rfl, rfl, rfl, rfl, rfl, rfl, rfl, rfl, rfl, rfl⟩

theorem FrozenSince.endsRun_eq_false {s t : State} {move : HostMove} {moves : List HostMove} (h : FrozenSince s t)
    (hmoves : t.moves = move :: moves) : endsRun move = false :=
  h.pending move (hmoves ▸ List.mem_cons_self)

/-- A step of a halted run takes no reset and no INIT, so it is idle or its word is only answered. -/
theorem FrozenSince.step {s t u : State} {first : Cause} (hs : s.err = some first) (h : FrozenSince s t)
    (hstep : step t = .next u) : FrozenSince s u := by
  have ht : t.err = some first := h.err_eq.trans hs
  obtain ⟨moves, hmoves, -⟩ | ⟨w, moves, i, hmoves, -, hdec, hexec⟩ | ⟨w, moves, why, hmoves, -, -, hill⟩ |
    ⟨-, -, rfl⟩ := step_cases hstep
  · exact absurd (h.endsRun_eq_false hmoves) nofun
  · have hi : i ≠ .init := by
      rintro rfl
      exact absurd ((h.endsRun_eq_false hmoves).symm.trans (endsRun_of_init hdec)) nofun
    obtain ⟨code, data, hresponds, hcarries⟩ := exec_halted_responds (s := t.takeMove moves) ht hi
    cases hexec.symm.trans hresponds
    exact h.respond hmoves hcarries
  · cases hill.symm.trans (unlessHalted_halted (s := t.takeMove moves) ht)
    exact h.respond (code := .halted) hmoves (.inl rfl)
  · exact h

/-- Settles O59: being frozen since the halted state is kept by every step of the run. -/
theorem haltedRunIsFrozen : Obligations.HaltedRunIsFrozen := by
  intro k s t hs hmoves hrun
  obtain ⟨first, hfirst⟩ := Option.ne_none_iff_exists'.1 hs
  have hfrozen : FrozenSince s t := run_induction (fun _ _ => FrozenSince.step hfirst) (.refl hmoves) hrun
  exact ⟨hfrozen.sameArchitecture, hfrozen.answers⟩

/-! ## What a raised fault writes (R183) -/

/-- ERR takes the code of a fault if it was 0 and keeps its value otherwise. -/
theorem raise_err_first_wins (c : Cause) (s : State) :
    (s.err = none → (raise c s).err = some c) ∧ ∀ first, s.err = some first → (raise c s).err = some first :=
  ⟨fun h => State.recordFault_err_running h c, fun _ h => State.recordFault_err_halted h c⟩

/-- Settles O55: a fault is answered by raising it, in MODINV after G is written. -/
theorem raisedFaultWritesOnlyErr : Obligations.RaisedFaultWritesOnlyErr := by
  intro i s t c d hexec hrsps
  obtain ⟨-, -, rfl⟩ | ⟨-, ⟨c', rfl⟩ | ⟨rfl, -, -, rfl⟩ | ⟨_, hcompleted, -⟩⟩ := exec_cases hexec
  · simp at hrsps
  · obtain ⟨rfl, rfl⟩ : c' = c ∧ 0 = d := by simpa using hrsps
    obtain ⟨hnone, hsome⟩ := raise_err_first_wins c' s
    exact ⟨rfl, hnone, hsome, rfl, fun _ => rfl⟩
  · obtain ⟨rfl, rfl⟩ : .notInvertible = c ∧ 0 = d := by simpa using hrsps
    obtain ⟨hnone, hsome⟩ := raise_err_first_wins .notInvertible (s.putG (Nat.gcd s.a.toNat (2 ^ 80)))
    exact ⟨rfl, hnone, hsome, rfl, (absurd rfl ·)⟩
  · simp [hcompleted] at hrsps

/-! ## Which command raises which cause (R181) -/

/-- The table of causes by command: in the state `s` the command may raise the cause. -/
inductive MayRaise (s : State) : Instr → Cause → Prop
  | gcd (h : s.av = false) : MayRaise s .gcd .keyNotLoaded
  | modinv (h : s.av = false) : MayRaise s .modinv .keyNotLoaded
  | notInvertible (h : Nat.gcd s.a.toNat (2 ^ 80) ≠ 1) : MayRaise s .modinv .notInvertible
  | encryption {i : Instr} (hi : i = .enc ∨ i = .encblk) (h : s.av = false ∨ s.bv = false) :
    MayRaise s i .keyNotLoaded
  | decryption {i : Instr} (hi : i = .dec ∨ i = .decblk) (h : s.bv = false) : MayRaise s i .keyNotLoaded
  | noInverse {i : Instr} (hi : i = .dec ∨ i = .decblk) (h : s.invv = false) : MayRaise s i .inverseNotReady
  | setlen {n : Byte} (h : 10 < n.toNat) : MayRaise s (.setlen n) .badLength
  | pushb {byte : Byte} (h : s.len.val = 10) : MayRaise s (.pushb byte) .blockOverflow
  | rdb {index : Byte} (h : s.len.val ≤ index.toNat) : MayRaise s (.rdb index) .badIndex
  | rd {reg : Byte} (h : 7 ≤ reg.toNat) : MayRaise s (.rd reg) .badIndex

/-- If the command `i` went from `s` to `t` by raising a fault, the table has it. -/
def FaultIsInTable (i : Instr) (s t : State) : Prop :=
  ∀ c d, t.rsps = ⟨.raised c, d⟩ :: s.rsps → MayRaise s i c

section Table
variable {i : Instr} {s : State} {rule : State → State}

theorem FaultIsInTable.of_completed {t : State} {d : Data} (h : t.rsps = ⟨.completed, d⟩ :: s.rsps) :
    FaultIsInTable i s t := by
  intro c d' hrsps
  simp [h] at hrsps

theorem FaultIsInTable.of_raised {t : State} {c : Cause} {d : Data} (h : t.rsps = ⟨.raised c, d⟩ :: s.rsps)
    (hc : MayRaise s i c) : FaultIsInTable i s t := by
  intro c' d' hrsps
  cases h.symm.trans hrsps
  exact hc

theorem FaultIsInTable.of_unlessHalted {t : State} (h : unlessHalted rule s = .next t)
    (hrule : FaultIsInTable i s (rule s)) : FaultIsInTable i s t := by
  obtain ⟨-, rfl⟩ | ⟨-, rfl⟩ := unlessHalted_cases h
  · exact hrule
  · intro c d hrsps
    simp at hrsps

theorem FaultIsInTable.of_withMultiplier (hi : s.av = false → MayRaise s i .keyNotLoaded)
    (hrule : FaultIsInTable i s (rule s)) : FaultIsInTable i s (withMultiplier rule s) := by
  rcases withMultiplier_cases rule s with ⟨-, he⟩ | ⟨hav, he⟩ <;> rw [he]
  · exact hrule
  · exact .of_raised rfl (hi hav)

theorem FaultIsInTable.of_withEncryptionKey (hi : i = .enc ∨ i = .encblk) (hrule : FaultIsInTable i s (rule s)) :
    FaultIsInTable i s (withEncryptionKey rule s) := by
  rcases withEncryptionKey_cases rule s with ⟨-, he⟩ | ⟨hmissing, he⟩ <;> rw [he]
  · exact hrule
  · exact .of_raised rfl (.encryption hi hmissing)

theorem FaultIsInTable.of_withDecryptionKey (hi : i = .dec ∨ i = .decblk) (hrule : FaultIsInTable i s (rule s)) :
    FaultIsInTable i s (withDecryptionKey rule s) := by
  rcases withDecryptionKey_cases rule s with ⟨-, he⟩ | ⟨hbv, he⟩ | ⟨⟨-, hinvv⟩, he⟩ <;> rw [he]
  · exact hrule
  · exact .of_raised rfl (.decryption hi hbv)
  · exact .of_raised rfl (.noInverse hi hinvv)

end Table

/-- Every command raises only what the table has for it: each check that can fail names its cause. -/
theorem exec_faultIsInTable {i : Instr} {s t : State} (h : exec i s = .next t) : FaultIsInTable i s t := by
  cases i with
  | nop | init => cases h; exact .of_completed rfl
  | rd reg =>
    rcases registerView_cases reg s with ⟨-, value, hview⟩ | ⟨hreg, hview⟩
    · cases h.symm.trans (exec_rd_of_register hview)
      exact .of_completed rfl
    · cases h.symm.trans (exec_rd_badIndex hview)
      exact .of_raised rfl (.rd hreg)
  | lda | ldb | ldx | b2i | i2b =>
    simp only [exec, execLda, execLdb, execLdx, execB2i, execI2b] at h
    exact .of_unlessHalted h (.of_completed rfl)
  | gcd =>
    rw [exec, execGcd] at h
    exact .of_unlessHalted h (.of_withMultiplier .gcd (.of_completed rfl))
  | modinv =>
    rw [exec, execModinv] at h
    refine .of_unlessHalted h (.of_withMultiplier .modinv ?_)
    rcases takeInverse_cases (xgcd s.a.toNat modulus) s with ⟨-, he⟩ | ⟨hne, he⟩ <;> rw [he]
    · exact .of_completed rfl
    · rw [xgcd_fst, modulus_eq] at hne
      exact .of_raised rfl (.notInvertible hne)
  | setlen n =>
    rw [exec, execSetlen] at h
    refine .of_unlessHalted h ?_
    rcases blockLength_cases n with ⟨_, hn⟩ | ⟨hlong, hn⟩ <;> simp only [hn]
    · exact .of_completed rfl
    · exact .of_raised rfl (.setlen hlong)
  | pushb byte =>
    rw [exec, execPushb] at h
    refine .of_unlessHalted h ?_
    rcases pushSlot_cases s with ⟨_, hslot⟩ | ⟨hfull, hslot⟩ <;> simp only [hslot]
    · exact .of_completed rfl
    · exact .of_raised rfl (.pushb hfull)
  | rdb index =>
    rw [exec, execRdb] at h
    refine .of_unlessHalted h ?_
    rcases bufferIndex_cases index s with ⟨-, hidx⟩ | ⟨hle, hidx⟩ <;> simp only [hidx]
    · exact .of_completed rfl
    · exact .of_raised rfl (.rdb hle)
  | enc | encblk =>
    simp only [exec, execEnc, execEncblk] at h
    exact .of_unlessHalted h (.of_withEncryptionKey (by simp) (.of_completed rfl))
  | dec | decblk =>
    simp only [exec, execDec, execDecblk] at h
    exact .of_unlessHalted h (.of_withDecryptionKey (by simp) (.of_completed rfl))

/-- Code 7 is answered by the prologue alone. -/
theorem halted_of_answers_halted {i : Instr} {s t : State} {d : Data} (hexec : exec i s = .next t)
    (hrsps : t.rsps = ⟨.halted, d⟩ :: s.rsps) : s.err ≠ none ∧ runsWhileHalted i = false := by
  obtain ⟨hi, hhalted, -⟩ | ⟨-, ⟨c, rfl⟩ | ⟨-, -, -, rfl⟩ | ⟨_, hcompleted, -⟩⟩ := exec_cases hexec
  · exact ⟨Option.ne_none_iff_exists'.2 hhalted, hi⟩
  · simp at hrsps
  · simp at hrsps
  · simp [hcompleted] at hrsps

theorem Code.byte_toNat_le (code : Code) : code.byte.toNat ≤ 8 := by
  cases code with
  | completed | halted => decide
  | raised cause => cases cause <;> decide

theorem State.errByte_of_fault {s : State} {c : Cause} (h : s.err = some c) : s.errByte = (Code.raised c).byte := by
  simp only [State.errByte, h, Code.byte]

/-- Settles O56: a fault is one of the table, a refusal is the prologue's, and the codes are those of R181. -/
theorem causesAndCodes : Obligations.CausesAndCodes := by
  refine ⟨fun i s t code d hexec hrsps => ?causes, rfl, rfl, rfl, rfl, rfl, rfl, rfl, rfl, rfl, Code.byte_toNat_le,
    fun _ _ => State.errByte_of_fault⟩
  cases code with
  | completed => trivial
  | halted =>
    obtain ⟨hs, hi⟩ := halted_of_answers_halted hexec hrsps
    exact ⟨hs, (runsWhileHalted_eq_false_iff i).1 hi⟩
  | raised c =>
    cases exec_faultIsInTable hexec c d hrsps with
    | gcd h => exact .inl ⟨.inl rfl, h⟩
    | modinv h => exact .inl ⟨.inr (.inl rfl), h⟩
    | notInvertible h => exact ⟨rfl, h⟩
    | encryption hi h => exact h.imp (⟨.inr (.inr hi), ·⟩) (⟨hi.imp_right .inl, ·⟩)
    | decryption hi h => exact .inr ⟨.inr (.inr hi), h⟩
    | noInverse hi h => exact ⟨hi, h⟩
    | setlen h => exact ⟨_, rfl, h⟩
    | pushb h => exact ⟨⟨_, rfl⟩, h⟩
    | rdb h => exact .inl ⟨_, rfl, h⟩
    | rd h => exact .inr ⟨_, rfl, h⟩

end Sys2Proof.Machine
end

section
/-! PROOFS. Reset and the timing of a command (70_reset_and_hazards.md): what a reset move and an edge with `rst` 1 leave
(R210 to R213), the refusal before the first reset (R212), and the LAT edges from a word's transfer to its response
(R222, R224). -/

namespace Sys2Proof.Machine

/-! ## Reset (R210 to R213) -/

/-- Settles O2: the waiting reset is taken, and `assertReset` leaves the reset state with the host's side kept. -/
theorem resetMoveGivesResetState : Obligations.ResetMoveGivesResetState := by
  intro s moves hmoves
  rw [step_of_reset hmoves]
  rfl

/-- Settles O13: of the four offers of the host only the refused one is left when no reset has been and none waits. -/
theorem nothingRunsBeforeFirstReset : Obligations.NothingRunsBeforeFirstReset := by
  intro s hunreset hno
  rcases nextMove_cases s with ⟨moves, hmoves, -⟩ | ⟨w, moves, -, hreset, -⟩ | ⟨-, hreset, -⟩ | ⟨-, -, hoffer⟩
  · exact absurd hmoves (hno moves)
  · exact absurd hreset (Bool.eq_false_iff.1 hunreset)
  · exact absurd hreset (Bool.eq_false_iff.1 hunreset)
  · rw [step, hoffer]

/-- An edge with `rst` 1 resets the core and leaves it idle, whatever the phase and the other pins. -/
theorem edge_of_rst {pins : Pins} (hrst : pins.rst = true) (s : PortState) :
    edge pins s = .next ⟨s.core.assertReset, .idle⟩ := by
  rw [edge, if_pos hrst]

/-- Settles O16: the edge leaves `assertReset` of the core in the idle phase, where nothing is on the response port. -/
theorem resetEdgeAbandonsCommand : Obligations.ResetEdgeAbandonsCommand := by
  intro s pins hrst
  exact ⟨_, edge_of_rst hrst s, rfl, rfl, rfl⟩

/-! ## From the transfer of a word to its response (R222, R224) -/

/-- After a first reset an edge with `rst` 0 goes by the phase. -/
theorem edge_of_not_rst {core : State} {pins : Pins} (hreset : core.resetDone = true) (hrst : pins.rst = false)
    (phase : Phase) : edge pins ⟨core, phase⟩ = runEdge pins core phase := by
  simp only [edge, hrst, hreset, Bool.false_eq_true, if_false, if_true]

theorem edges_cons_of_next {pins : Pins} {s t : PortState} (later : List Pins) (h : edge pins s = .next t) :
    edges (pins :: later) s = edges later t := by
  rw [edges, h]

/-- A command that responded once is finished with its response on the port and not yet among the transferred ones. -/
theorem finishCommand_of_rsps {before t : State} {r : Response} (h : t.rsps = r :: before.rsps) :
    finishCommand before (.next t) = .next ⟨{ t with rsps := before.rsps }, .responding r⟩ := by
  simp only [finishCommand, h]

/-- A command under way with `left` edges to go is finished by the edge after them. -/
theorem edges_executing {core : State} {w : CommandWord} {done : PortState} (hreset : core.resetDone = true)
    (hdone : finishCommand core (executeWord exec w core) = .next done) {waiting : List Pins} {left : Nat}
    (hlength : waiting.length = left + 1) (hrst : ∀ pins ∈ waiting, pins.rst = false) :
    edges waiting ⟨core, .executing w left⟩ = .next done := by
  induction left generalizing waiting with
  | zero =>
    obtain ⟨last, rfl⟩ := List.length_eq_one_iff.1 hlength
    have hlast : edge last ⟨core, .executing w 0⟩ = .next done := by
      rw [edge_of_not_rst hreset (hrst last List.mem_cons_self), runEdge, hdone]
    rw [edges_cons_of_next [] hlast, edges]
  | succ left ih =>
    obtain ⟨pins, later, rfl⟩ := List.exists_cons_of_length_eq_add_one hlength
    obtain ⟨hpins, hlater⟩ := List.forall_mem_cons.1 hrst
    have hcount : edge pins ⟨core, .executing w (left + 1)⟩ = .next ⟨core, .executing w left⟩ := by
      rw [edge_of_not_rst hreset hpins, runEdge]
    rw [edges_cons_of_next later hcount]
    exact ih (Nat.succ.inj hlength) hlater

/-- Settles O14: the first edge accepts the word, the next LAT - 1 count down, and the last one executes it. -/
theorem transferredWordIsAnsweredAfterLatency : Obligations.TransferredWordIsAnsweredAfterLatency := by
  intro core first later hreset hrst hvalid hlater hlat
  obtain ⟨t, r, hword, hrsps, -, -⟩ := executeWord_respondsWith first.cmdWord core
  refine ⟨t, r, hword, hrsps, ?_⟩
  have haccept : edge first ⟨core, .idle⟩ =
      .next ⟨core, .executing first.cmdWord (Config.extraCycles first.cmdWord core)⟩ := by
    rw [edge_of_not_rst hreset hrst, runEdge, if_pos hvalid]
  have hdone : finishCommand core (executeWord exec first.cmdWord core) =
      .next ⟨{ t with rsps := core.rsps }, .responding r⟩ := by
    rw [hword, finishCommand_of_rsps hrsps]
  rw [edges_cons_of_next later haccept]
  exact edges_executing hreset hdone hlat hlater

end Sys2Proof.Machine
end
